-- ==== Sys2Proof/Word.lean ====
section
/-! DEFINITION. The engine's plain words: bytes, 64-bit words, binary64 data, the fold mode. -/

namespace Sys2Proof

/-- U8 of rule R9. -/
abbrev Byte := BitVec 8

/-- U64 of rule R9: a word of the register files a and p. -/
abbrev Word := BitVec 64

/-- A 32-bit number: a command word or the value of a control register (rules R31 to R36). -/
abbrev Reg := BitVec 32

/-- An IEEE 754 binary64 datum as its 64-bit pattern (rule R124). -/
abbrev F64 := BitVec 64

/-- The session parameter MODE (rule R6): which of the two StateFolder policies runs. -/
inductive FoldMode where
  /-- MODE = 0, the canonical elementwise fold. -/
  | elementwise
  /-- MODE = 1, the all-pairs cross fold. -/
  | cross
deriving DecidableEq, Repr

end Sys2Proof
end

