-- ==== Sys2Proof/Config.lean ====
section
/-! DEFINITION. The instance parameters of rule R7 and the values the spec leaves free. -/

namespace Sys2Proof.Config

/-- Which cosine and sine an instance has (R7, R131, R132). The functions themselves are not data, so
the instance names its numeric unit: the reference one, or the `k`-th other one, whose functions are
the uninterpreted constants `numCos k`, `numSin k`. DESIGN CHOICE, safe (log 6). -/
inductive NumUnit where
  /-- Correctly rounded cosine and sine (R132); computed in Machine/Trig.lean. -/
  | reference
  /-- Any other instance: a claim about it holds for every pair of functions. -/
  | other (k : Nat)
deriving DecidableEq, Repr

/-- NUM.COS of an instance that is not the reference one: nothing is known of it but what a claim
assumes (P1, P2 of R131; P3 holds because it is a function). Free, safe (log 6). -/
opaque numCos : Nat → BitVec 64 → BitVec 64

/-- NUM.SIN of an instance that is not the reference one. Free, safe (log 6). -/
opaque numSin : Nat → BitVec 64 → BitVec 64

/-- Sign (bit 51) and payload (bits 50:0) of the NaN that an operation on the two given data returns:
IEEE 754, to which R127 defers, does not fix them. Free, safe (log 7). -/
opaque nanBits : BitVec 64 → BitVec 64 → BitVec 52

/-- What cvt_f64_u64 gives for a positive datum that is not integer-valued: R130 states no value for one,
and no rule converts one. Free, safe (log 8). -/
opaque fractionInt : BitVec 64 → BitVec 64

/-- The parameters fixed when the hardware is built (R7). A model takes them as arguments: they are
carried in State, no step writes them, and a claim about every state is a claim about every instance
(DESIGN CHOICE, safe; log 4). -/
structure Instance where
  /-- NMAX, the capacity in bytes of H and B; read as CAP[15:0] (R33). -/
  nmax : BitVec 16
  /-- P, the padding constant, byte 0 first; LP is its length (R22). -/
  p : List Byte
  /-- NUM.COS and NUM.SIN (R131). -/
  num : NumUnit
deriving DecidableEq, Repr

/-- LP, the length of the padding constant (R7). -/
def Instance.lp (i : Instance) : Nat := i.p.length

end Sys2Proof.Config
end

