-- ==== Sys2Proof/Machine/Transaction.lean ====
section
/-! DEFINITION. Host transactions and their replies (R11, R55, R85), and the host's script operations
and procedures (R89 to R93, R181). -/

namespace Sys2Proof.Machine

/-- RW of rule R85. -/
inductive Direction where
  /-- RW = 0. -/
  | read
  /-- RW = 1. -/
  | write
deriving DecidableEq, Repr

/-- The access widths of rule R85 (SZ = 0, 1, 2, 3). -/
inductive Size where
  /-- 1 byte, SZ = 0. -/
  | one
  /-- 2 bytes, SZ = 1. -/
  | two
  /-- 4 bytes, SZ = 2. -/
  | four
  /-- 8 bytes, SZ = 3. -/
  | eight
deriving DecidableEq, Repr

/-- SZ[2:0] of a width (R85). -/
def Size.code : Size → BitVec 3
  | .one => 0
  | .two => 1
  | .four => 2
  | .eight => 3

/-- The width an SZ code stands for; 4 to 7 stand for none (R85). -/
def Size.ofCode (c : BitVec 3) : Option Size :=
  if c = 0 then some .one
  else if c = 1 then some .two
  else if c = 2 then some .four
  else if c = 3 then some .eight
  else none

/-- Number of bytes of a width. -/
def Size.bytes : Size → Nat
  | .one => 1
  | .two => 2
  | .four => 4
  | .eight => 8

/-- One host transaction: MemRead(addr, n) or MemWrite(addr, n, v) of rule R11. `data` is the value v
written, as a number; a read carries 0. -/
structure Transaction where
  dir : Direction
  size : Size
  addr : BitVec 16
  data : BitVec 64
deriving DecidableEq, Repr

/-- The transaction header TH = RW, SZ[2:0], ADDR[15:0] (R85). -/
def Transaction.header (t : Transaction) : BitVec 20 :=
  (match t.dir with | .read => (0 : BitVec 1) | .write => 1) ++ t.size.code ++ t.addr

/-- The transaction with a given header and write data, where SZ names a width (R85). -/
def Transaction.ofHeader (th : BitVec 20) (data : BitVec 64) : Option Transaction :=
  match Size.ofCode (th.extractLsb' 16 3) with
  | some sz => some
      { dir := if th.getLsbD 19 then .write else .read, size := sz,
        addr := th.extractLsb' 0 16, data := data }
  | none => none

/-- MemRead(addr, n) (R11). -/
def memRead (addr : BitVec 16) (size : Size) : Transaction :=
  { dir := .read, size := size, addr := addr, data := 0 }

/-- MemWrite(addr, n, v) (R11). -/
def memWrite (addr : BitVec 16) (size : Size) (v : BitVec 64) : Transaction :=
  { dir := .write, size := size, addr := addr, data := v }

/-- The 4-byte write of a command word to CMD (R36, R90). -/
def cmdWrite (w : Reg) : Transaction := memWrite 0x0000 .four (w.setWidth 64)

/-- The engine's answer to one transaction (R11, R56). -/
inductive Reply where
  /-- A write that was carried out (also one that raised an exception, R226). -/
  | ok
  /-- The byte a 1-byte read returns. -/
  | byte (b : Byte)
  /-- The number a 4-byte read returns. -/
  | word (w : Reg)
  /-- A byte read of a cell of H that holds no value: no data. No run gets this answer (R21; log 3). -/
  | noValue
  /-- The error response of an illegal transaction (R56); a read returns no data. -/
  | busError
deriving DecidableEq, Repr

/-- The bytes of a 32-bit register on the lanes offset+0 to offset+3 of a byte-laned bus (R53). -/
def lanes (w : Reg) : List Byte :=
  [w.extractLsb' 0 8, w.extractLsb' 8 8, w.extractLsb' 16 8, w.extractLsb' 24 8]

/-- One line of a host script (R89 to R93), its operands as the numbers written in the script. -/
inductive ScriptLine where
  /-- `CREATE n, m` (R90). -/
  | create (n m : Nat)
  /-- `CREATE n`, which is `CREATE n, 0` (R93). -/
  | createSize (n : Nat)
  /-- `CREATE`, which is `CREATE 128, 0` (R93). -/
  | createDefault
  /-- `ABSORB` (R90). -/
  | absorb
  /-- `PUSH b` (R90). -/
  | push (b : Nat)
  /-- `RDH i` (R90). -/
  | rdh (i : Nat)
  /-- `RDSTATUS` (R90). -/
  | rdstatus
  /-- `RDCFG` (R90). -/
  | rdcfg
  /-- `RDCAP` (R90). -/
  | rdcap
  /-- `RDFILL` (R90). -/
  | rdfill
  /-- `RDERRINFO` (R90). -/
  | rderrinfo
  /-- `CMD w` (R90). -/
  | cmd (w : Nat)
  /-- `BLOCK b0 b1 ...` (R91). -/
  | block (bytes : List Byte)
  /-- `DIGEST` (R92). -/
  | digest
  /-- `HASH n, m, "message"` (R92). -/
  | hash (n m : Nat) (message : List Byte)
deriving DecidableEq, Repr

/-- `CREATE n, m` as a transaction (R90): the word 0x01000000 + (m << 16) + n. -/
def createOp (n m : Nat) : Transaction := cmdWrite (BitVec.ofNat 32 (0x01000000 + m * 65536 + n))

/-- `ABSORB` as a transaction (R90). -/
def absorbOp : Transaction := cmdWrite 0x02000000

/-- `PUSH b` as a transaction (R90). -/
def pushOp (b : Byte) : Transaction := memWrite 0x0020 .one (b.setWidth 64)

/-- `RDH i` as a transaction (R90). -/
def rdhOp (i : Nat) : Transaction := memRead (BitVec.ofNat 16 (0x1000 + i)) .one

/-- BLOCK: the pushes, then ABSORB (R91). -/
def blockOps (bytes : List Byte) : List Transaction := bytes.map pushOp ++ [absorbOp]

/-- DIGEST: RDH 0 to RDH N-1 (R92, R180). -/
def digestOps (n : Nat) : List Transaction := (List.range n).map rdhOp

/-- The successive n-byte pieces of a message, the last one possibly shorter, none for an empty
remainder (R92, R256). The first argument bounds the number of pieces. -/
def piecesUpTo : Nat → Nat → List Byte → List (List Byte)
  | 0, _, _ => []
  | _ + 1, _, [] => []
  | fuel + 1, n, x :: xs => (x :: xs).take n :: piecesUpTo fuel n ((x :: xs).drop n)

/-- The pieces of a whole message: never more than it has bytes. -/
def messagePieces (n : Nat) (message : List Byte) : List (List Byte) :=
  piecesUpTo message.length n message

/-- One thing a script has the host do: a transaction, or DIGEST, whose reads are known only when the
host comes to it, since they go by CFG.N at that moment (R92). -/
inductive HostOp where
  | transaction (t : Transaction)
  | digest
deriving DecidableEq, Repr

/-- The transactions of one of them when CFG.N is `n`: DIGEST is RDH 0 to RDH n-1 (R92). -/
def HostOp.transactions (n : BitVec 16) : HostOp → List Transaction
  | .transaction t => [t]
  | .digest => digestOps n.toNat

/-- HASH: CREATE, one BLOCK per piece, DIGEST (R92); its DIGEST goes by the CFG.N that CREATE leaves,
also where CREATE fails. -/
def hashOps (n m : Nat) (message : List Byte) : List HostOp :=
  (createOp n m :: (messagePieces n message).flatMap blockOps).map .transaction ++ [.digest]

/-- What a script line assembles to (R90 to R93). -/
def ScriptLine.assemble : ScriptLine → List HostOp
  | .create n m => [.transaction (createOp n m)]
  | .createSize n => [.transaction (createOp n 0)]
  | .createDefault => [.transaction (createOp 128 0)]
  | .absorb => [.transaction absorbOp]
  | .push b => [.transaction (pushOp (BitVec.ofNat 8 b))]
  | .rdh i => [.transaction (rdhOp i)]
  | .rdstatus => [.transaction (memRead 0x0004 .four)]
  | .rdcfg => [.transaction (memRead 0x0008 .four)]
  | .rdcap => [.transaction (memRead 0x000C .four)]
  | .rdfill => [.transaction (memRead 0x0010 .four)]
  | .rderrinfo => [.transaction (memRead 0x0014 .four)]
  | .cmd w => [.transaction (cmdWrite (BitVec.ofNat 32 w))]
  | .block bytes => (blockOps bytes).map .transaction
  | .digest => [.digest]
  | .hash n m message => hashOps n m message

/-- digit(v) of R181: the v-th character of "0123456789abcdef", as its ASCII byte. -/
def hexDigit (v : Nat) : Byte := BitVec.ofNat 8 (if v < 10 then 48 + v else 87 + v)

/-- hex(H) of R181: two characters per byte, high nibble first, as ASCII bytes. -/
def hexRender (h : List Byte) : List Byte :=
  h.flatMap fun x => [hexDigit (x.toNat / 16), hexDigit (x.toNat % 16)]

end Sys2Proof.Machine
end

