-- ==== Sys2Proof/Syntax.lean ====
section
/-! DEFINITION. The instructions: one constructor per row of spec/opcode_table.json. -/

namespace Sys2Proof

/-- The operations of rule R80, in the order of the opcode table. Every operand has exactly the width
its encoding gives it (rules R82, R86, R88), so an operand out of range cannot be written. -/
inductive Instr where
  /-- CREATE (format C, R82): `n` = IMM, the byte count N; `mode` = M. -/
  | create (n : BitVec 16) (mode : FoldMode)
  /-- ABSORB (format C, R83). -/
  | absorb
  /-- WRCMD (format B, R86): a 4-byte write of a format C word to CMD. -/
  | wrcmd (word : Reg)
  /-- PUSH (format B, R86): a 1-byte write to DATA_IN. -/
  | push (b : Byte)
  /-- RDH (format B, R86): a 1-byte read of the H window at index i = ADDR[11:0]. -/
  | rdh (i : BitVec 12)
  /-- RDSTATUS (format B, R86). -/
  | rdstatus
  /-- RDCFG (format B, R86). -/
  | rdcfg
  /-- RDCAP (format B, R86). -/
  | rdcap
  /-- RDFILL (format B, R86). -/
  | rdfill
  /-- RDERRINFO (format B, R86). -/
  | rderrinfo
  /-- IDLE (format U, R87): SEQ = 0. -/
  | idle
  /-- PAD (format U, R87): SEQ = 1. -/
  | pad
  /-- PACK (format U, R87): SEQ = 2. -/
  | pack
  /-- MIX (format U, R87): SEQ = 3. -/
  | mix
  /-- DIFFUSE (format U, R87): SEQ = 4. -/
  | diffuse
  /-- FOLD.E (format U, R87): SEQ = 5 with CFG.MODE = 0. -/
  | foldE
  /-- FOLD.X (format U, R87): SEQ = 5 with CFG.MODE = 1. -/
  | foldX
deriving DecidableEq, Repr

end Sys2Proof
end

