-- ==== Sys2Proof/WellFormed.lean ====
section
/-! DEFINITION. What makes an instruction, an instance, a transaction and a script line legal as data. -/

namespace Sys2Proof

/-- Is an instruction's every operand within its encoding? Each operand's type has exactly the width
of its field and every value of the field decodes (R82: "all 65536 values decode"; R83, R86, R88), so
the answer is yes for all of them: whether CREATE's N or RDH's index is legal is checked by the
instruction's meaning (R170, R178), not by the decoder. -/
def Instr.wellFormed : Instr → Bool
  | .create _ _ | .absorb | .wrcmd _ | .push _ | .rdh _ | .rdstatus | .rdcfg | .rdcap | .rdfill
  | .rderrinfo | .idle | .pad | .pack | .mix | .diffuse | .foldE | .foldX => true

/-- The constraints of rule R7 on NMAX, LP and P: 8 <= NMAX <= 4096, NMAX mod 8 = 0, NMAX <= LP, every
byte of P an ASCII decimal digit. (That the digits are those of pi is `Instance.digitsOfPi`.) -/
def Config.Instance.wellFormed (i : Config.Instance) : Bool :=
  8 ≤ i.nmax.toNat && i.nmax.toNat ≤ 4096 && i.nmax.toNat % 8 = 0 && i.nmax.toNat ≤ i.lp &&
    i.p.all fun x => 0x30 ≤ x.toNat && x.toNat ≤ 0x39

/-- A transaction's data is an n·8-bit value, and a read carries none (R11). -/
def Machine.Transaction.wellFormed (t : Machine.Transaction) : Bool :=
  match t.dir with
  | .read => t.data = 0
  | .write => t.data.toNat < 2 ^ (8 * t.size.bytes)

/-- The operand ranges of R90 and R91: 0 <= n <= 65535, m in 0..1, 0 <= b <= 255, 0 <= i <= 4095, any
32-bit w, a BLOCK of at least one byte. HASH takes CREATE's operands, also those CREATE refuses; only a
message to be cut into pieces of 0 bytes has no meaning (R92; log 12). -/
def Machine.ScriptLine.wellFormed : Machine.ScriptLine → Bool
  | .create n m => n ≤ 65535 && m ≤ 1
  | .createSize n => n ≤ 65535
  | .push b => b ≤ 255
  | .rdh i => i ≤ 4095
  | .cmd w => w < 2 ^ 32
  | .block bytes => 1 ≤ bytes.length
  | .hash n m message => n ≤ 65535 && m ≤ 1 && (1 ≤ n || message.isEmpty)
  | .digest | .createDefault | .absorb | .rdstatus | .rdcfg | .rdcap | .rdfill | .rderrinfo => true

end Sys2Proof
end

