-- ==== Sys2Proof/Decode.lean ====
section
/-! DEFINITION. Decoding (R81 to R88): total, every encoding that is none of the table's rejected by
name; and the encoder. -/

namespace Sys2Proof

/-- The words an operation is read from, one alternative per format of rule R80. -/
inductive Encoded where
  /-- Format C: a command word (R81). -/
  | command (w : Reg)
  /-- Format B: the transaction header TH of R85 and the low 32 bits of the write data. -/
  | transaction (th : BitVec 20) (data : Reg)
  /-- Format U: the selector US = MODE, SEQ[2:0] of R87. -/
  | selector (us : BitVec 4)
deriving DecidableEq, Repr

/-- Why an encoding is no instruction. -/
inductive Reject where
  /-- A command word that is neither CREATE nor ABSORB: IllegalCommand (R84). -/
  | illegalCommand (w : Reg)
  /-- A header that matches no row of R86: BusError (R56). -/
  | noBusOperation (th : BitVec 20)
  /-- A selector that matches no row of R87 (SEQ = 6, 7; unreachable, R206). -/
  | noMicroOperation (us : BitVec 4)
deriving DecidableEq, Repr

/-- MODE of the bit M (R6, R81). -/
def foldModeOfBit (m : Bool) : FoldMode := if m then .cross else .elementwise

/-- The bit M of a MODE (R6, R81). -/
def foldModeBit : FoldMode → BitVec 1
  | .elementwise => 0
  | .cross => 1

/-- Format C, in the order of R81. -/
def decodeCommand (c : Reg) : Except Reject Instr :=
  if c.extractLsb' 24 8 = 0x01 ∧ c.extractLsb' 17 7 = 0 then
    .ok (.create (c.extractLsb' 0 16) (foldModeOfBit (c.getLsbD 16)))
  else if c = 0x02000000 then .ok .absorb
  else .error (.illegalCommand c)

/-- Format B: the rows of R86, matched on TH. -/
def decodeTransaction (th : BitVec 20) (data : Reg) : Except Reject Instr :=
  if th = 0xA0000 then .ok (.wrcmd data)
  else if th = 0x20004 then .ok .rdstatus
  else if th = 0x20008 then .ok .rdcfg
  else if th = 0x2000C then .ok .rdcap
  else if th = 0x20010 then .ok .rdfill
  else if th = 0x20014 then .ok .rderrinfo
  else if th = 0x80020 then .ok (.push (data.extractLsb' 0 8))
  else if th.extractLsb' 12 8 = 0x01 then .ok (.rdh (th.extractLsb' 0 12))
  else .error (.noBusOperation th)

/-- Format U: the rows of R87, matched on US. -/
def decodeSelector (us : BitVec 4) : Except Reject Instr :=
  let seq := us.extractLsb' 0 3
  if seq = 0 then .ok .idle
  else if seq = 1 then .ok .pad
  else if seq = 2 then .ok .pack
  else if seq = 3 then .ok .mix
  else if seq = 4 then .ok .diffuse
  else if us = 0x5 then .ok .foldE
  else if us = 0xD then .ok .foldX
  else .error (.noMicroOperation us)

/-- The decoder (R80). -/
def decode : Encoded → Except Reject Instr
  | .command w => decodeCommand w
  | .transaction th data => decodeTransaction th data
  | .selector us => decodeSelector us

/-- The word of CREATE n, mode: OPC = 0x01, Z = 0, M, IMM (R81, R82). -/
def createWord (n : BitVec 16) (mode : FoldMode) : Reg :=
  (0x01 : BitVec 8) ++ (0 : BitVec 7) ++ foldModeBit mode ++ n

/-- The word of ABSORB (R83). -/
def absorbWord : Reg := 0x02000000

/-- The encoder, from the tables of R82, R83, R86, R87. -/
def encode : Instr → Encoded
  | .create n mode => .command (createWord n mode)
  | .absorb => .command absorbWord
  | .wrcmd w => .transaction 0xA0000 w
  | .push b => .transaction 0x80020 (b.setWidth 32)
  | .rdh i => .transaction ((0x01 : BitVec 8) ++ i) 0
  | .rdstatus => .transaction 0x20004 0
  | .rdcfg => .transaction 0x20008 0
  | .rdcap => .transaction 0x2000C 0
  | .rdfill => .transaction 0x20010 0
  | .rderrinfo => .transaction 0x20014 0
  | .idle => .selector 0x0
  | .pad => .selector 0x1
  | .pack => .selector 0x2
  | .mix => .selector 0x3
  | .diffuse => .selector 0x4
  | .foldE => .selector 0x5
  | .foldX => .selector 0xD

/-- The words whose bits are `w` in a row of the opcode table of `nbits` bits: format U rows have at
most 8 (4 bits in whole bytes), format B rows at most 24 (20 bits in whole bytes; the data, to which
the table gives no bits, is 0), format C rows 32. -/
def tableWords (nbits w : Nat) : Option Encoded :=
  if nbits ≤ 8 then if w < 2 ^ 4 then some (.selector (BitVec.ofNat 4 w)) else none
  else if nbits ≤ 24 then if w < 2 ^ 20 then some (.transaction (BitVec.ofNat 20 w) 0) else none
  else if nbits ≤ 32 then if w < 2 ^ 32 then some (.command (BitVec.ofNat 32 w)) else none
  else none

/-- The instruction the decoder reads from a row of the opcode table. -/
def decodeTableWord (nbits w : Nat) : Option Instr :=
  match tableWords nbits w with
  | some e => (decode e).toOption
  | none => none

end Sys2Proof
end

