-- ==== Sys2Proof/Machine/Cells.lean ====
section
/-! DEFINITION. Register files as sparse memories: the cells that hold a value, in one canonical form. -/

namespace Sys2Proof.Machine

/-- A register file or memory with values of type α: its written cells as (index, value) pairs, the
indices strictly rising. An index that is not listed holds NO VALUE (R21, R252): reading it answers
none. `Cells Byte` is `List Host.Cell`. -/
abbrev Cells (α : Type) := List (Nat × α)

/-- The value of one cell; none where the cell holds no value. -/
def Cells.read {α : Type} : Cells α → Nat → Option α
  | [], _ => none
  | (k, v) :: c, i => if i = k then some v else Cells.read c i

/-- Write one cell, keeping the indices strictly rising. -/
def Cells.write {α : Type} : Cells α → Nat → α → Cells α
  | [], i, x => [(i, x)]
  | (k, v) :: c, i, x =>
    if i < k then (i, x) :: (k, v) :: c
    else if i = k then (i, x) :: c
    else (k, v) :: Cells.write c i x

/-- Leave one cell without a value. -/
def Cells.erase {α : Type} (c : Cells α) (i : Nat) : Cells α := c.filter fun kv => kv.1 != i

/-- Give one cell the value computed for it, or none where none was (log 3). -/
def Cells.put {α : Type} (c : Cells α) (i : Nat) : Option α → Cells α
  | some x => c.write i x
  | none => c.erase i

/-- Consecutive cells from index `lo` on. -/
def Cells.putAll {α : Type} : Cells α → Nat → List (Option α) → Cells α
  | c, _, [] => c
  | c, lo, x :: xs => Cells.putAll (c.put lo x) (lo + 1) xs

/-- The indices are at least `lo`, below `cap`, and strictly rising. -/
def Cells.rising {α : Type} (cap : Nat) : Nat → Cells α → Bool
  | _, [] => true
  | lo, (k, _) :: c => lo ≤ k && k < cap && Cells.rising cap (k + 1) c

/-- The canonical form of a register file of `cap` cells. No entry can equal what an unlisted index
reads as, since that is no value. -/
def Cells.wf {α : Type} (cap : Nat) (c : Cells α) : Bool := c.rising cap 0

/-- The values of a range of cells, where all of them hold one. -/
def valuesOf {α : Type} : List (Option α) → Option (List α)
  | [] => some []
  | none :: _ => none
  | some x :: xs => (valuesOf xs).map (x :: ·)

/-- Do the first `n` cells all hold a value? -/
def Cells.filled {α : Type} (n : Nat) (c : Cells α) : Bool :=
  (List.range n).all fun i => (c.read i).isSome

end Sys2Proof.Machine
end

