-- ==== Sys2Proof/Machine/Reference.lean ====
section
/-! DEFINITION. The reference instance of rule R7: NMAX = LP = 1024, the literal P of R24, the
correctly rounded cosine and sine. -/

namespace Sys2Proof.Machine

/-- The sixteen rows of R24, row r holding P[64r, 64r+64) as a 64-digit number. -/
def piRows : List Nat :=
  [3141592653589793238462643383279502884197169399375105820974944592,
   3078164062862089986280348253421170679821480865132823066470938446,
   0955058223172535940812848111745028410270193852110555964462294895,
   4930381964428810975665933446128475648233786783165271201909145648,
   5669234603486104543266482133936072602491412737245870066063155881,
   7488152092096282925409171536436789259036001133053054882046652138,
   4146951941511609433057270365759591953092186117381932611793105118,
   5480744623799627495673518857527248912279381830119491298336733624,
   4065664308602139494639522473719070217986094370277053921717629317,
   6752384674818467669405132000568127145263560827785771342757789609,
   1736371787214684409012249534301465495853710507922796892589235420,
   1995611212902196086403441815981362977477130996051870721134999999,
   8372978049951059731732816096318595024459455346908302642522308253,
   3446850352619311881710100031378387528865875332083814206171776691,
   4730359825349042875546873115956286388235378759375195778185778053,
   2171226806613001927876611195909216420198938095257201065485863278]

/-- The 1024 digits of R24 as one number: pi · 10^1023, rounded down. -/
def piDigits : Nat := piRows.foldl (fun acc row => acc * 10 ^ 64 + row) 0

/-- The last `count` decimal digits of `n` as ASCII, the most significant first. -/
def digitBytes : (count n : Nat) → List Byte
  | 0, _ => []
  | count + 1, n => BitVec.ofNat 8 (0x30 + n / 10 ^ count % 10) :: digitBytes count n

/-- P of the reference instance (R24). -/
def referenceP : List Byte := digitBytes 1024 piDigits

/-- The reference instance of R7. -/
def referenceInstance : Config.Instance := { nmax := 1024, p := referenceP, num := .reference }

end Sys2Proof.Machine
end

