-- ==== Sys2Proof/Machine/State.lean ====
section
/-! DEFINITION. The machine's state, its faults and refusals, and the state after reset
(10_state.md; R250, R252). -/

namespace Sys2Proof.Machine

/-- The files of cells a micro-operation or CREATE can reach (R50 (b), (c)). -/
inductive File where
  /-- The digest state H. -/
  | h
  /-- The block buffer B. -/
  | b
  /-- The word register file a. -/
  | a
  /-- The round output register file p. -/
  | p
  /-- The padding constant P. -/
  | rom
deriving DecidableEq, Repr

/-- Why the machine stops: an index that does not exist. No rule lets it arise, and no state that meets
`State.Inv` reaches it. -/
inductive Fault where
  /-- A cell past the capacity of its file is written, or P read at LP or above (R50 (b), (c): there is no
  such index). Raised by CREATE, PUSH and the micro-operations. Safe (log 3). -/
  | noCell (file : File) (index : Nat)
deriving DecidableEq, Repr

/-- Why the model has no meaning for an instruction. -/
inductive Refusal where
  /-- Raised by an arm of `exec` whose instruction is not modelled yet; no arm raises it. Safe. -/
  | notModelled (mnemonic : String)
deriving DecidableEq, Repr

/-- SEQ (R37), the sequencer state and program counter. The codes 6 and 7 are unreachable and left out
(R206; log 5). -/
inductive Seq where
  /-- 0: no ABSORB in progress. -/
  | idle
  /-- 1: PAD is next. -/
  | pad
  /-- 2: PACK is next. -/
  | pack
  /-- 3: MIX is next, with round constant RND. -/
  | mix
  /-- 4: DIFFUSE is next. -/
  | diffuse
  /-- 5: FOLD is next. -/
  | fold
deriving DecidableEq, Repr

/-- The value of STATUS.ERR (R221). The codes 5 to 15 are never produced and left out (log 5). -/
inductive ErrCode where
  /-- 0: no exception since the last successful CREATE or reset. -/
  | noError
  /-- 1: the size of a CREATE is not legal. -/
  | invalidConfig
  /-- 2: a command word decodes to no command. -/
  | illegalCommand
  /-- 3: ABSORB or PUSH with VALID = 0. -/
  | noSession
  /-- 4: PUSH with N bytes already in B. -/
  | overflow
deriving DecidableEq, Repr

/-- The whole state: what 10_state.md gives the engine, the instance parameters of R7, and the model's
own view of the host's side of the bus and of the reset input. -/
structure State where
  /-- The instance parameters: NMAX (CAP), P with LP, NUM (R7, R22, R33). No step writes them. -/
  inst : Config.Instance
  /-- H, the digest state (R20, R21). -/
  h : Cells Byte
  /-- B, the block buffer (R25). -/
  b : Cells Byte
  /-- a, the word register file (R26). -/
  a : Cells Word
  /-- p, the round output register file (R27). -/
  p : Cells Word
  /-- CFG.N (R31). -/
  n : BitVec 16
  /-- CFG.MODE (R31). -/
  mode : FoldMode
  /-- STATUS.VALID (R32). -/
  valid : Bool
  /-- STATUS.ERR (R32, R221). -/
  err : ErrCode
  /-- ERRINFO (R35). -/
  errInfo : Reg
  /-- WPTR (R30), read as FILL[15:0] (R34). -/
  wptr : BitVec 16
  /-- SEQ (R37). -/
  seq : Seq
  /-- RND, the round constant h (R38). -/
  rnd : BitVec 7
  /-- MODEL'S OWN (log 1): the host's transactions not yet complete, the one being served first. -/
  pending : List Transaction
  /-- MODEL'S OWN (log 1): the replies the engine has given, the latest first. -/
  replies : List Reply
  /-- MODEL'S OWN (log 2): the samples of the reset input still to come, one per step; none left means
  not asserted. -/
  resetLine : List Bool
deriving DecidableEq, Repr

/-- What reset leaves in an instance (R41, R250, R252): H, B, a and p hold no value. -/
def State.resetFor (inst : Config.Instance) : State where
  inst := inst
  h := []
  b := []
  a := []
  p := []
  n := 0
  mode := .elementwise
  valid := false
  err := .noError
  errInfo := 0
  wptr := 0
  seq := .idle
  rnd := 0
  pending := []
  replies := []
  resetLine := []

/-- The reference instance (R7) right after reset. The host has issued nothing yet. -/
def State.reset : State := State.resetFor referenceInstance

/-- The canonical form of all the memory the machine has: H and B of NMAX bytes, a and p of NMAX/8
words (R50 (b)). -/
def Memory.wf (s : State) : Bool :=
  s.h.wf s.inst.nmax.toNat && s.b.wf s.inst.nmax.toNat &&
    s.a.wf (s.inst.nmax.toNat / 8) && s.p.wf (s.inst.nmax.toNat / 8)

end Sys2Proof.Machine
end

