-- ==== Sys2Proof/Machine/Flags.lean ====
section
/-! DEFINITION. The codes of the engine's fields and the words its control registers read as
(R31 to R35, R37, R87, R221). Reserved bits read as 0. -/

namespace Sys2Proof.Machine

/-- The 4-bit code of STATUS.ERR (R221). -/
def ErrCode.code : ErrCode → BitVec 4
  | .noError => 0
  | .invalidConfig => 1
  | .illegalCommand => 2
  | .noSession => 3
  | .overflow => 4

/-- The 3-bit code of SEQ (R37). -/
def Seq.code : Seq → BitVec 3
  | .idle => 0
  | .pad => 1
  | .pack => 2
  | .mix => 3
  | .diffuse => 4
  | .fold => 5

/-- The SEQ a code stands for; 6 and 7 stand for none (R37). -/
def Seq.ofCode (c : BitVec 3) : Option Seq :=
  if c = 0 then some .idle
  else if c = 1 then some .pad
  else if c = 2 then some .pack
  else if c = 3 then some .mix
  else if c = 4 then some .diffuse
  else if c = 5 then some .fold
  else none

/-- STATUS (R32): bit 0 VALID, bits 3:1 zero, bits 7:4 ERR, bits 31:8 zero. -/
def statusWord (s : State) : Reg :=
  (0 : BitVec 24) ++ s.err.code ++ (0 : BitVec 3) ++ BitVec.ofBool s.valid

/-- CFG (R31): bits 15:0 N, bit 16 MODE, bits 31:17 zero. -/
def cfgWord (s : State) : Reg := (0 : BitVec 15) ++ foldModeBit s.mode ++ s.n

/-- CAP (R33): bits 15:0 NMAX, bits 31:16 zero. -/
def capWord (s : State) : Reg := (0 : BitVec 16) ++ s.inst.nmax

/-- FILL (R34): bits 15:0 WPTR, bits 31:16 zero. -/
def fillWord (s : State) : Reg := (0 : BitVec 16) ++ s.wptr

/-- ERRINFO (R35). -/
def errInfoWord (s : State) : Reg := s.errInfo

/-- US = MODE, SEQ[2:0] (R87). -/
def selectorWord (s : State) : BitVec 4 := foldModeBit s.mode ++ s.seq.code

/-- W = N/8, the number of words of a block (R5). -/
def wordCount (s : State) : Nat := s.n.toNat / 8

end Sys2Proof.Machine
end

