-- ==== Sys2Proof/Machine/Float.lean ====
section
/-! DEFINITION. The numerics of the MixingRound (R123 to R130): binary64 data and the operations on
them, computed exactly on natural numbers and rounded once. -/

namespace Sys2Proof.Machine

/-- The sign s of a datum (R124). -/
def fSign (u : F64) : Bool := u.getLsbD 63

/-- The exponent field e[10:0] of a datum (R124). -/
def fExp (u : F64) : Nat := (u.extractLsb' 52 11).toNat

/-- The fraction field m[51:0] of a datum (R124). -/
def fFrac (u : F64) : Nat := (u.extractLsb' 0 52).toNat

/-- Neither an infinity nor a NaN (R124). -/
def fFinite (u : F64) : Bool := fExp u != 2047

/-- A NaN: e = 2047 with m not 0 (R124). -/
def fNaN (u : F64) : Bool := fExp u == 2047 && fFrac u != 0

/-- The least positive datum is 2^-1074 (R124). -/
def scaleBits : Nat := 1074

/-- The number of units of 2^-1074 in 1. -/
def fScale : Nat := 2 ^ scaleBits

/-- The magnitude of a finite datum as a number of units of 2^-1074, exactly (R124): m for e = 0,
otherwise (2^52 + m) * 2^(e-1). -/
def fUnits (u : F64) : Nat :=
  if fExp u = 0 then fFrac u else (2 ^ 52 + fFrac u) * 2 ^ (fExp u - 1)

/-- The pattern of +infinity (R124). -/
def infPattern : Nat := 2047 * 2 ^ 52

/-- A datum from a sign and the pattern of its magnitude (R124). -/
def withSign (neg : Bool) (pattern : Nat) : F64 :=
  BitVec.ofNat 64 (if neg then 2 ^ 63 + pattern else pattern)

/-- Pattern of the magnitude of RN (R125) for the exact value `num / den`. In units of 2^-1074 the
value is num * fScale / den; `q` is the exponent of its last significand place (0 for subnormals), `k`
the significand rounded down, and the tie goes to the even significand. A carry out of the significand
moves into the exponent field by itself, and a value of 2^1024 or more is the infinity. -/
def roundMag (num den : Nat) : Nat :=
  let q := Nat.log2 (num * fScale / den) - 52
  let k := num * fScale / (den * 2 ^ q)
  let r := num * fScale % (den * 2 ^ q)
  let up := decide (den * 2 ^ q < 2 * r) || (decide (2 * r = den * 2 ^ q) && k % 2 == 1)
  min (q * 2 ^ 52 + if up then k + 1 else k) infPattern

/-- RN of the number with the given sign and magnitude `num / den` (R125). -/
def roundNearest (neg : Bool) (num den : Nat) : F64 := withSign neg (roundMag num den)

/-- The NaN that an operation on `u` and `v` returns: quiet (IEEE 754), its sign and payload free
(log 7). -/
def quietNaN (u v : F64) : F64 :=
  let bits := Config.nanBits u v
  bits.extractLsb' 51 1 ++ (0xFFF : BitVec 12) ++ bits.extractLsb' 0 51

/-- cvt_u64_f64 (R126): RN(n). -/
def cvtU64F64 (n : Word) : F64 := roundNearest false n.toNat 1

/-- fmul (R127): RN of the exact product; infinities and NaNs as IEEE 754. -/
def fmul (u v : F64) : F64 :=
  let neg := fSign u != fSign v
  if fNaN u || fNaN v then quietNaN u v
  else if fFinite u && fFinite v then roundNearest neg (fUnits u * fUnits v) (fScale * fScale)
  else if (fFinite u && fUnits u == 0) || (fFinite v && fUnits v == 0) then quietNaN u v
  else withSign neg infPattern

/-- fdiv (R127): RN of the exact quotient; infinities, NaNs and division by zero as IEEE 754. -/
def fdiv (u v : F64) : F64 :=
  let neg := fSign u != fSign v
  if fNaN u || fNaN v then quietNaN u v
  else if fFinite u && fFinite v then
    if fUnits v = 0 then
      if fUnits u = 0 then quietNaN u v else withSign neg infPattern
    else roundNearest neg (fUnits u) (fUnits v)
  else if fFinite u then withSign neg 0
  else if fFinite v then withSign neg infPattern
  else quietNaN u v

/-- fabs (R129): the sign bit cleared. -/
def fabs (u : F64) : F64 := u &&& 0x7FFFFFFFFFFFFFFF

/-- fceil (R129): the least integer-valued datum not below a finite `u`; a zero keeps `u`'s sign and an
infinity or NaN is returned as it is (log 8). -/
def fceil (u : F64) : F64 :=
  if fFinite u then
    if fSign u then roundNearest true (fUnits u / fScale) 1
    else roundNearest false ((fUnits u + (fScale - 1)) / fScale) 1
  else u

/-- fround (R129): the identity on the integer-valued data it is applied to. -/
def fround (u : F64) : F64 := u

/-- cvt_f64_u64 (R130): the integer an integer-valued datum is, saturating: below 0 or NaN gives 0, 2^64
or more gives 2^64 - 1. A positive datum with a fraction has no stated value: it is free (log 8). -/
def cvtF64U64 (u : F64) : Word :=
  if fNaN u || fSign u then 0
  else if fFinite u then
    if fUnits u % fScale = 0 then BitVec.ofNat 64 (min (fUnits u / fScale) (2 ^ 64 - 1))
    else Config.fractionInt u
  else BitVec.ofNat 64 (2 ^ 64 - 1)

/-- M of R128: UINT64_MAX as a divisor, 2^64. -/
def fM : F64 := 0x43F0000000000000

/-- K of R128: UINT64_MAX / 2, 2^63. -/
def fK : F64 := 0x43E0000000000000

/-- PI64 of R128: RN(pi). -/
def fPi : F64 := 0x400921FB54442D18

/-- The datum 1.0 (R124). -/
def fOne : F64 := 0x3FF0000000000000

end Sys2Proof.Machine
end

