-- ==== Sys2Proof/Machine/Trig.lean ====
section
/-! DEFINITION. NUM.COS and NUM.SIN (R131) and, for the reference instance (R132), the correctly rounded
cosine and sine: evaluated with 512 fractional bits and rounded once. -/

namespace Sys2Proof.Machine

/-- Fractional bits of the fixed-point values the reference cosine and sine are evaluated with. -/
def trigBits : Nat := 512

/-- Further fractional bits kept while multiples of pi/2 are taken off an argument (an argument is
below 2^1024). -/
def reduceBits : Nat := 1100

/-- pi/2 with trigBits + reduceBits fractional bits, rounded down, from the digits of R24. -/
def halfPi : Nat := piDigits * 2 ^ (trigBits + reduceBits) / (2 * 10 ^ 1023)

/-- The alternating sum t - t·x/((k+1)(k+2)) + ..., each term from the one before it, in fixed point
with trigBits fractional bits. `x` is the square of the argument; the sum ends when a term is 0. -/
def alternating (x : Nat) : (fuel k t : Nat) → Nat
  | 0, _, _ => 0
  | _ + 1, _, 0 => 0
  | fuel + 1, k, t + 1 =>
    (t + 1) - alternating x fuel (k + 2) ((t + 1) * x / 2 ^ trigBits / ((k + 1) * (k + 2)))

/-- Taylor terms enough for an argument below pi/2 at trigBits fractional bits. -/
def trigTerms : Nat := 80

/-- cos r for 0 <= r <= pi/2 in fixed point. -/
def fixedCos (r : Nat) : Nat := alternating (r * r / 2 ^ trigBits) trigTerms 0 (2 ^ trigBits)

/-- sin r for 0 <= r <= pi/2 in fixed point. -/
def fixedSin (r : Nat) : Nat := alternating (r * r / 2 ^ trigBits) trigTerms 1 r

/-- |u| = quadrant · pi/2 + r: the quadrant and r in fixed point. -/
def reduceArg (u : F64) : Nat × Nat :=
  let x := fUnits u * 2 ^ (trigBits + reduceBits - scaleBits)
  (x / halfPi, x % halfPi / 2 ^ reduceBits)

/-- A fixed-point magnitude, which is at most 1, rounded once to binary64. -/
def roundFixed (neg : Bool) (v : Nat) : F64 :=
  roundNearest neg (min v (2 ^ trigBits)) (2 ^ trigBits)

/-- Data of magnitude below 2^-27: their cosine rounds to 1.0 and their sine to themselves. -/
def trigTiny (u : F64) : Bool := fExp u < 996

/-- RN(cos u) (R132). UNVERIFIED that 512 bits decide every rounding (log 6). -/
def referenceCos (u : F64) : F64 :=
  if !fFinite u then quietNaN u u
  else if trigTiny u then fOne
  else
    let (q, r) := reduceArg u
    match q % 4 with
    | 0 => roundFixed false (fixedCos r)
    | 1 => roundFixed true (fixedSin r)
    | 2 => roundFixed true (fixedCos r)
    | _ => roundFixed false (fixedSin r)

/-- RN(sin u) (R132); RN(0) = +0 (R125). UNVERIFIED that 512 bits decide every rounding (log 6). -/
def referenceSin (u : F64) : F64 :=
  if !fFinite u then quietNaN u u
  else if fUnits u = 0 then 0
  else if trigTiny u then u
  else
    let (q, r) := reduceArg u
    match q % 4 with
    | 0 => roundFixed (fSign u) (fixedSin r)
    | 1 => roundFixed (fSign u) (fixedCos r)
    | 2 => roundFixed (!fSign u) (fixedSin r)
    | _ => roundFixed (!fSign u) (fixedCos r)

/-- NUM.COS of an instance (R131). -/
def cosOf (num : Config.NumUnit) (u : F64) : F64 :=
  match num with
  | .reference => referenceCos u
  | .other k => Config.numCos k u

/-- NUM.SIN of an instance (R131). -/
def sinOf (num : Config.NumUnit) (u : F64) : F64 :=
  match num with
  | .reference => referenceSin u
  | .other k => Config.numSin k u

end Sys2Proof.Machine
end

