-- ==== Sys2Proof/Machine/Operands.lean ====
section
/-! DEFINITION. The datapath: what the micro-operations compute from the words and bytes they read
(R52, R103, R133, R140, R160 to R162, R170). -/

namespace Sys2Proof.Machine

/-- lowByte(x) (R9). -/
def lowByte (x : Word) : Byte := x.setWidth 8

/-- Does CREATE accept N (R170)? N >= 8, N mod 8 = 0, N <= NMAX. -/
def legalSize (i : Config.Instance) (n : BitVec 16) : Bool :=
  8 ≤ n.toNat && n.toNat % 8 = 0 && n.toNat ≤ i.nmax.toNat

/-- The sum of R103 for one group of bytes, the first byte the least significant. -/
def packGroup : List Byte → Word
  | [] => 0
  | x :: xs => x.setWidth 64 + (packGroup xs <<< 8)

/-- PACK's words a[0, w) from the bytes of B (R103). -/
def packWords : Nat → List Byte → List Word
  | 0, _ => []
  | w + 1, bytes => packGroup (bytes.take 8) :: packWords w (bytes.drop 8)

/-- `packGroup` of cells: a word has a value where all its bytes have one (log 3). -/
def packGroupCells : List (Option Byte) → Option Word
  | [] => some 0
  | x :: xs => Option.map₂ (fun (x : Byte) (w : Word) => x.setWidth 64 + (w <<< 8)) x (packGroupCells xs)

/-- PACK's words from the cells of B. -/
def packCells : Nat → List (Option Byte) → List (Option Word)
  | 0, _ => []
  | w + 1, bytes => packGroupCells (bytes.take 8) :: packCells w (bytes.drop 8)

/-- The eight bytes (p[k] >> 8m) mod 256, m = 0..7 (R160). -/
def serialiseWord (x : Word) : List Byte := (List.range 8).map fun m => lowByte (x >>> (8 * m))

/-- R, the serialised round output (R160). -/
def serialise (words : List Word) : List Byte := words.flatMap serialiseWord

/-- R from the cells of p: the bytes of a word without a value have none (log 3). -/
def serialiseCells (words : List (Option Word)) : List (Option Byte) :=
  words.flatMap fun w => (List.range 8).map fun m => w.map fun (x : Word) => lowByte (x >>> (8 * m))

/-- b = (f · h) · PI64 of R133, f = A / M. -/
def mixB (w : Word) (h : BitVec 7) : F64 :=
  fmul (fmul (fdiv (cvtU64F64 w) fM) (cvtU64F64 (h.setWidth 64))) fPi

/-- g = h · b of R133. -/
def mixG (w : Word) (h : BitVec 7) : F64 := fmul (cvtU64F64 (h.setWidth 64)) (mixB w h)

/-- kc = K · cos(g) of R133. -/
def mixKc (num : Config.NumUnit) (w : Word) (h : BitVec 7) : F64 := fmul fK (cosOf num (mixG w h))

/-- x0 = kc · cos(b) of R133. -/
def mixX0 (num : Config.NumUnit) (w : Word) (h : BitVec 7) : F64 :=
  fmul (mixKc num w h) (cosOf num (mixB w h))

/-- y0 = kc · sin(b) of R133. -/
def mixY0 (num : Config.NumUnit) (w : Word) (h : BitVec 7) : F64 :=
  fmul (mixKc num w h) (sinOf num (mixB w h))

/-- Step 4 of R133: absolute value, ceiling, identity rounding, conversion (R137). -/
def mixInt (u : F64) : Word := cvtF64U64 (fround (fceil (fabs u)))

/-- mixword(w, h) (R133). -/
def mixword (num : Config.NumUnit) (w : Word) (h : BitVec 7) : Word :=
  mixInt (mixX0 num w h) ^^^ mixInt (mixY0 num w h)

/-- One update of a byte of H by one word, the four terms of R140 as written. -/
def diffuseByte (x : Byte) (w : Word) : Byte :=
  x ^^^ lowByte w ^^^ lowByte (w <<< 11) ^^^ lowByte (w <<< 13) ^^^ lowByte (w <<< 17)

/-- DIFFUSE's update of one byte of H by all the words (R140). -/
def diffuse (words : List Word) (x : Byte) : Byte := words.foldl diffuseByte x

/-- `diffuse` of cells: a byte has a value where it and every word had one (log 3). -/
def diffuseCell (words : List (Option Word)) (x : Option Byte) : Option Byte :=
  words.foldl (Option.map₂ diffuseByte) x

/-- The elementwise fold of R into H (R161): the bytes that have both an H[i] and an R[i]. That the other
bytes are left alone is the model's choice for N not a multiple of 8, which no run has (log 11). -/
def foldElementwise (h r : List Byte) : List Byte := List.zipWith (fun x y => x ^^^ y) h r

/-- `foldElementwise` of cells (log 3). -/
def foldElementwiseCells (h r : List (Option Byte)) : List (Option Byte) :=
  List.zipWith (Option.map₂ fun x y => x ^^^ y) h r

/-- The cross fold's update of the byte of index `i`: `add` of every R[j], j ≠ i (R162). `j` is the index
of the first byte of the list. -/
def crossFrom {α : Type} (add : α → α → α) (i : Nat) : (j : Nat) → List α → α → α
  | _, [], x => x
  | j, y :: r, x => crossFrom add i (j + 1) r (if j = i then x else add x y)

/-- The cross fold of R into H (R162): every byte of `h` is updated. A byte whose index is at or above
the length of `r` receives every byte of `r`: the model's choice for N not a multiple of 8, which no run
has (log 11). -/
def foldCross (h r : List Byte) : List Byte :=
  h.mapIdx fun i x => crossFrom (fun x y => x ^^^ y) i 0 r x

/-- `foldCross` of cells (log 3). -/
def foldCrossCells (h r : List (Option Byte)) : List (Option Byte) :=
  h.mapIdx fun i x => crossFrom (Option.map₂ fun x y => x ^^^ y) i 0 r x

/-- The start, step and bound of the round constants (R8, R204). -/
def roundStart : BitVec 7 := 13
def roundStep : BitVec 7 := 13
def roundBound : BitVec 7 := 75

end Sys2Proof.Machine
end

