-- ==== Sys2Proof/Machine/Ops.lean ====
section
/-! DEFINITION. The named operations over the register files, the bus and the exception registers:
reading and writing ranges of cells, replying, taking an exception and leaving it, reset. -/

namespace Sys2Proof.Machine

/-- Cells lo, ..., lo+n-1 of a file as they stand, with or without a value (R21). -/
def readCells {α : Type} (c : Cells α) (lo n : Nat) : List (Option α) :=
  (List.range n).map fun k => c.read (lo + k)

/-- Write consecutive cells of a file of `cap` cells; a fault if one of them does not exist (R50). -/
def writeCells {α : Type} (f : File) (cap : Nat) (c : Cells α) (lo : Nat) (xs : List (Option α)) :
    Except Fault (Cells α) :=
  if xs.length = 0 ∨ lo + xs.length ≤ cap then .ok (c.putAll lo xs)
  else .error (.noCell f (max lo cap))

/-- P[0, n): padding and initialisation both read P from offset 0 (R22, R102); there is no index LP
(R50 (c)), and no legal instance asks for it (R7). -/
def State.readRom (s : State) (n : Nat) : Except Fault (List (Option Byte)) :=
  if n ≤ s.inst.lp then .ok ((s.inst.p.take n).map some) else .error (.noCell .rom s.inst.lp)

/-- H[lo, lo+n). -/
def State.readH (s : State) (lo n : Nat) : List (Option Byte) := readCells s.h lo n

/-- B[lo, lo+n). -/
def State.readB (s : State) (lo n : Nat) : List (Option Byte) := readCells s.b lo n

/-- a[lo, lo+n). -/
def State.readA (s : State) (lo n : Nat) : List (Option Word) := readCells s.a lo n

/-- p[lo, lo+n). -/
def State.readP (s : State) (lo n : Nat) : List (Option Word) := readCells s.p lo n

/-- H[lo + i] <- xs[i] for every i. -/
def State.writeH (s : State) (lo : Nat) (xs : List (Option Byte)) : Except Fault State :=
  match writeCells .h s.inst.nmax.toNat s.h lo xs with
  | .ok c => .ok { s with h := c }
  | .error e => .error e

/-- B[lo + i] <- xs[i] for every i. -/
def State.writeB (s : State) (lo : Nat) (xs : List (Option Byte)) : Except Fault State :=
  match writeCells .b s.inst.nmax.toNat s.b lo xs with
  | .ok c => .ok { s with b := c }
  | .error e => .error e

/-- a[lo + i] <- xs[i] for every i. -/
def State.writeA (s : State) (lo : Nat) (xs : List (Option Word)) : Except Fault State :=
  match writeCells .a (s.inst.nmax.toNat / 8) s.a lo xs with
  | .ok c => .ok { s with a := c }
  | .error e => .error e

/-- p[lo + i] <- xs[i] for every i. -/
def State.writeP (s : State) (lo : Nat) (xs : List (Option Word)) : Except Fault State :=
  match writeCells .p (s.inst.nmax.toNat / 8) s.p lo xs with
  | .ok c => .ok { s with p := c }
  | .error e => .error e

/-- The outcome of an operation that may fault. -/
def finish : Except Fault State → Host.Outcome State Fault Refusal
  | .ok s => .next s
  | .error f => .fault f

/-- Complete the host transaction being served with reply `r` (R60). -/
def State.respond (s : State) (r : Reply) : State :=
  { s with pending := s.pending.tail, replies := r :: s.replies }

/-- Exception entry, `raise E(info)` of R226: the first error since the last successful CREATE or reset
is recorded, VALID is cleared, nothing else changes. -/
def State.takeException (s : State) (e : ErrCode) (info : Reg) : State :=
  { s with
    err := if s.err = .noError then e else s.err
    errInfo := if s.err = .noError then info else s.errInfo
    valid := false }

/-- What an operation that raises does: exception entry, and the transaction completes normally on the
bus (R226). -/
def State.raise (s : State) (e : ErrCode) (info : Reg) : State := (s.takeException e info).respond .ok

/-- The way out of an exception other than reset: a successful CREATE clears ERR and ERRINFO and starts
a session (R171, R228). There is no return operation. -/
def State.clearException (s : State) : State :=
  { s with err := .noError, errInfo := 0, valid := true }

/-- The reset event (R250, R251): every register as after reset, the instance's constants kept. The
host's transactions still waiting stay; the CMD write that the reset cuts short is dropped without a
reply (log 2). -/
def State.takeReset (s : State) : State :=
  { State.resetFor s.inst with
    pending := if s.seq = .idle then s.pending else s.pending.tail
    replies := s.replies
    resetLine := s.resetLine }

end Sys2Proof.Machine
end

