-- ==== Sys2Proof/Machine/Bus.lean ====
section
/-! DEFINITION. The bus operations other than WRCMD: PUSH, RDH and the register reads
(R172, R173, R178, R179). -/

namespace Sys2Proof.Machine

/-- PUSH b (R172): NoSession, then Overflow, then B[WPTR] <- b and WPTR <- WPTR + 1. -/
def execPush (b : Byte) (s : State) : Host.Outcome State Fault Refusal :=
  if s.valid = false then .next (s.raise .noSession (b.setWidth 32))
  else if s.wptr = s.n then .next (s.raise .overflow (b.setWidth 32))
  else
    finish do
      let t ← s.writeB s.wptr.toNat [some b]
      return { t with wptr := s.wptr + 1 }.respond .ok

/-- RDH i (R178): BusError without a session or past N, otherwise H[i]; nothing is written.
An H[i] that holds no value, which no session has, is answered without data (log 3). -/
def execRdh (i : BitVec 12) (s : State) : Host.Outcome State Fault Refusal :=
  if s.valid = false ∨ s.n.toNat ≤ i.toNat then .next (s.respond .busError)
  else
    match s.h.read i.toNat with
    | some x => .next (s.respond (.byte x))
    | none => .next (s.respond .noValue)

/-- RDSTATUS (R179). -/
def execRdstatus (s : State) : Host.Outcome State Fault Refusal :=
  .next (s.respond (.word (statusWord s)))

/-- RDCFG (R179). -/
def execRdcfg (s : State) : Host.Outcome State Fault Refusal :=
  .next (s.respond (.word (cfgWord s)))

/-- RDCAP (R179). -/
def execRdcap (s : State) : Host.Outcome State Fault Refusal :=
  .next (s.respond (.word (capWord s)))

/-- RDFILL (R179). -/
def execRdfill (s : State) : Host.Outcome State Fault Refusal :=
  .next (s.respond (.word (fillWord s)))

/-- RDERRINFO (R179). -/
def execRderrinfo (s : State) : Host.Outcome State Fault Refusal :=
  .next (s.respond (.word (errInfoWord s)))

end Sys2Proof.Machine
end

