-- ==== Sys2Proof/Machine/Micro.lean ====
section
/-! DEFINITION. The micro-operations of the sequencer (R101, R103, R121, R140, R161, R162, R201). None
of them writes a flag or raises an exception. -/

namespace Sys2Proof.Machine

/-- IDLE (R201): nothing until a host transaction arrives. -/
def execIdle (s : State) : Host.Outcome State Fault Refusal := .next s

/-- PAD (R101): B[L + j] <- P[j] for j in [0, N - L), with L = WPTR. -/
def execPad (s : State) : Host.Outcome State Fault Refusal :=
  finish do
    let bytes ← s.readRom (s.n.toNat - s.wptr.toNat)
    let t ← s.writeB s.wptr.toNat bytes
    return { t with seq := .pack }

/-- PACK (R103): a[k] <- the little-endian word of B[8k], ..., B[8k+7]; RND <- 13. -/
def execPack (s : State) : Host.Outcome State Fault Refusal :=
  finish do
    let t ← s.writeA 0 (packCells (wordCount s) (s.readB 0 (8 * wordCount s)))
    return { t with rnd := roundStart, seq := .mix }

/-- MIX (R121): p[k] and a[k] <- mixword(a[k], RND). -/
def execMix (s : State) : Host.Outcome State Fault Refusal :=
  finish do
    let mixed := (s.readA 0 (wordCount s)).map (Option.map fun w => mixword s.inst.num w s.rnd)
    let t ← s.writeP 0 mixed
    let t ← t.writeA 0 mixed
    return { t with seq := .diffuse }

/-- DIFFUSE (R140): every byte of H by every word of a; RND <- RND + 13, and the round loop of R204 on
the new value. -/
def execDiffuse (s : State) : Host.Outcome State Fault Refusal :=
  finish do
    let t ← s.writeH 0 ((s.readH 0 s.n.toNat).map (diffuseCell (s.readA 0 (wordCount s))))
    let rnd := s.rnd + roundStep
    return { t with rnd := rnd, seq := if rnd ≤ roundBound then .mix else .fold }

/-- The end of an ABSORB (R161, R162, R202): WPTR <- 0, SEQ <- IDLE, and with SEQ idle again the CMD
write that started it completes (R60, R207). -/
def State.endAbsorb (s : State) : State := { s with wptr := 0, seq := .idle }.respond .ok

/-- FOLD with MODE = 0 (R161): H[i] <- H[i] ^ R[i]. -/
def execFoldE (s : State) : Host.Outcome State Fault Refusal :=
  finish do
    let t ← s.writeH 0
      (foldElementwiseCells (s.readH 0 s.n.toNat) (serialiseCells (s.readP 0 (wordCount s))))
    return t.endAbsorb

/-- FOLD with MODE = 1 (R162): H[i] <- H[i] ^ R[j] for every j ≠ i. -/
def execFoldX (s : State) : Host.Outcome State Fault Refusal :=
  finish do
    let t ← s.writeH 0
      (foldCrossCells (s.readH 0 s.n.toNat) (serialiseCells (s.readP 0 (wordCount s))))
    return t.endAbsorb

end Sys2Proof.Machine
end

