-- ==== Sys2Proof/Machine/Session.lean ====
section
/-! DEFINITION. The commands: CREATE, ABSORB, and WRCMD that delivers them (R81, R170 to R175). -/

namespace Sys2Proof.Machine

/-- CREATE N, MODE (R171): the legality check of R170, then H <- P[0, N), the configuration, WPTR, and a
new session with no error. On failure InvalidConfig records the command word. -/
def execCreate (n : BitVec 16) (mode : FoldMode) (s : State) : Host.Outcome State Fault Refusal :=
  if legalSize s.inst n then
    finish do
      let bytes ← s.readRom n.toNat
      let s ← s.writeH 0 bytes
      return ({ s with n := n, mode := mode, wptr := 0 }.clearException).respond .ok
  else .next (s.raise .invalidConfig (createWord n mode))

/-- ABSORB (R174): with no session NoSession; with no bytes pushed a successful no-op (R175); otherwise
the sequencer starts, and the CMD write stays pending until SEQ is IDLE again (R60, R207). -/
def execAbsorb (s : State) : Host.Outcome State Fault Refusal :=
  if s.valid = false then .next (s.raise .noSession absorbWord)
  else if s.wptr = 0 then .next (s.respond .ok)
  else .next { s with seq := .pad }

/-- WRCMD (R81, R86): the command decoded from the word executes; a word that is no command raises
IllegalCommand whatever VALID is (R84, R224). -/
def execWrcmd (word : Reg) (s : State) : Host.Outcome State Fault Refusal :=
  match decodeCommand word with
  | .ok (.create n mode) => execCreate n mode s
  | .ok .absorb => execAbsorb s
  | _ => .next (s.raise .illegalCommand word)

end Sys2Proof.Machine
end

