-- ==== Sys2Proof/Machine/Dispatch.lean ====
section
/-! DEFINITION. The meaning of every instruction: one arm per row of the opcode table. -/

namespace Sys2Proof.Machine

def exec (i : Instr) (s : State) : Host.Outcome State Fault Refusal :=
  match i with
  -- format C
  | .create n mode => Sys2Proof.Machine.execCreate n mode s
  | .absorb => Sys2Proof.Machine.execAbsorb s
  -- format B
  | .wrcmd word => Sys2Proof.Machine.execWrcmd word s
  | .push b => Sys2Proof.Machine.execPush b s
  | .rdh k => Sys2Proof.Machine.execRdh k s
  | .rdstatus => Sys2Proof.Machine.execRdstatus s
  | .rdcfg => Sys2Proof.Machine.execRdcfg s
  | .rdcap => Sys2Proof.Machine.execRdcap s
  | .rdfill => Sys2Proof.Machine.execRdfill s
  | .rderrinfo => Sys2Proof.Machine.execRderrinfo s
  -- format U
  | .idle => Sys2Proof.Machine.execIdle s
  | .pad => Sys2Proof.Machine.execPad s
  | .pack => Sys2Proof.Machine.execPack s
  | .mix => Sys2Proof.Machine.execMix s
  | .diffuse => Sys2Proof.Machine.execDiffuse s
  | .foldE => Sys2Proof.Machine.execFoldE s
  | .foldX => Sys2Proof.Machine.execFoldX s

end Sys2Proof.Machine
end

