-- ==== Sys2Proof/Machine/Fetch.lean ====
section
/-! DEFINITION. Where the next operation comes from (R201, R207, R208): the sequencer while SEQ is not
IDLE, otherwise the host transaction being served, otherwise IDLE. -/

namespace Sys2Proof.Machine

/-- The words of a transaction: its header and the low 32 bits of its data (R85). -/
def Transaction.words (t : Transaction) : Encoded := .transaction t.header (t.data.setWidth 32)

/-- The words of the next operation. While SEQ is not IDLE the host has no move (R207, R208). -/
def fetchWords (s : State) : Encoded :=
  match s.seq, s.pending with
  | .idle, t :: _ => t.words
  | _, _ => .selector (selectorWord s)

/-- The operation the words stand for. A WRCMD whose word is a command is that command (R86: "the
command decoded from that word is what executes"); a word that is none stays the WRCMD that raises
IllegalCommand. -/
def readOperation (e : Encoded) : Except Reject Instr :=
  match decode e with
  | .ok (.wrcmd w) =>
    match decode (.command w) with
    | .ok i => .ok i
    | .error _ => .ok (.wrcmd w)
  | r => r

/-- The next operation. -/
def fetch (s : State) : Except Reject Instr := readOperation (fetchWords s)

/-- Store an operation's words where the next step fetches: a command as a CMD write and a transaction
as the host's first pending transaction, with SEQ idle; a selector in SEQ, and in CFG.MODE where SEQ
alone does not select (FOLD). IDLE is fetched when no transaction is pending. The reset input is not
asserted. -/
def State.placeWords (s : State) : Encoded → State
  | .command w => { s with seq := .idle, pending := cmdWrite w :: s.pending, resetLine := [] }
  | .transaction th data =>
    match Transaction.ofHeader th (data.setWidth 64) with
    | some t => { s with seq := .idle, pending := t :: s.pending, resetLine := [] }
    | none => s
  | .selector us =>
    match Seq.ofCode (us.extractLsb' 0 3) with
    | some .idle => { s with seq := .idle, pending := [], resetLine := [] }
    | some .fold =>
      { s with seq := .fold, mode := foldModeOfBit (us.getLsbD 3), resetLine := [] }
    | some q => { s with seq := q, resetLine := [] }
    | none => s

end Sys2Proof.Machine
end

