-- ==== Sys2Proof/Machine/Step.lean ====
section
/-! DEFINITION. One step (R13, R201, R250): a reset if the reset input is asserted, otherwise the next
operation. -/

namespace Sys2Proof.Machine

/-- The next operation, run. A transaction that is no bus operation gets BusError and changes nothing
else (R56, R86); a sequencer selector always decodes. -/
def stepRun (s : State) : Host.Outcome State Fault Refusal :=
  match fetch s with
  | .ok i => exec i s
  | .error _ => .next (s.respond .busError)

/-- One step. It takes one sample of the reset input: asserted, the reset event happens (R250, R251, also
between micro-operations); otherwise one operation runs. -/
def step (s : State) : Host.Outcome State Fault Refusal :=
  match s.resetLine with
  | true :: rest => .next ({ s with resetLine := rest }.takeReset)
  | _ => stepRun { s with resetLine := s.resetLine.tail }

/-- `s` with the instruction of the opcode-table word `w` stored where `step` fetches next. -/
def State.withFetchWord (s : State) (nbits w : Nat) : State :=
  match tableWords nbits w with
  | some e => s.placeWords e
  | none => s

end Sys2Proof.Machine
end

