-- ==== Sys2Proof/Machine/BigStep.lean ====
section
/-! DEFINITION. ABSORB as one function (R176, R208) and the digest of a sequence of blocks, in the closed
form of R165. The step machine does not use it; claims compare the two. -/

namespace Sys2Proof.Machine

/-- The five round constants (R8, R204). -/
def roundConstants : List (BitVec 7) := [13, 26, 39, 52, 65]

/-- a_1, ..., a_5 of R176: a_r[k] = mixword(a_(r-1)[k], h_r). -/
def mixRounds (num : Config.NumUnit) : List (BitVec 7) → List Word → List (List Word)
  | [], _ => []
  | h :: hs, a =>
    let a' := a.map fun w => mixword num w h
    a' :: mixRounds num hs a'

/-- D of R141: the exclusive-or of the low bytes of all words. -/
def diffusionByte (words : List Word) : Byte := words.foldl (fun d w => d ^^^ lowByte w) 0

/-- The padded block: the bytes pushed, then P[0, N-L) (R101, R176). -/
def paddedBlock (i : Config.Instance) (n : Nat) (d : List Byte) : List Byte :=
  d ++ i.p.take (n - d.length)

/-- The words a_1, ..., a_5 of the block d. -/
def blockRounds (i : Config.Instance) (n : Nat) (d : List Byte) : List (List Word) :=
  mixRounds i.num roundConstants (packWords (n / 8) (paddedBlock i n d))

/-- What the block d adds to every byte of H in MODE 0, D_1 ^ ... ^ D_5, and in MODE 1 also T, the
exclusive-or of all bytes of R (R165). -/
def blockByte (i : Config.Instance) (n : Nat) (mode : FoldMode) (d : List Byte) : Byte :=
  let rounds := blockRounds i n d
  let ds := rounds.foldl (fun x words => x ^^^ diffusionByte words) 0
  match mode with
  | .elementwise => ds
  | .cross => ds ^^^ (serialise (rounds.getLastD [])).foldl (fun x y => x ^^^ y) 0

/-- absorb(H, d) of R176: H'[i] = H[i] ^ D_1 ^ ... ^ D_5 (^ T) ^ R[i]. -/
def absorbBlock (i : Config.Instance) (n : Nat) (mode : FoldMode) (h d : List Byte) : List Byte :=
  List.zipWith (fun x y => x ^^^ blockByte i n mode d ^^^ y) h
    (serialise ((blockRounds i n d).getLastD []))

/-- The state of a session after the given blocks (R176). -/
def absorbBlocks (i : Config.Instance) (n : Nat) (mode : FoldMode) (blocks : List (List Byte)) :
    List Byte :=
  blocks.foldl (absorbBlock i n mode) (i.p.take n)

end Sys2Proof.Machine
end

