-- ==== Sys2Proof/Machine/Script.lean ====
section
/-! DEFINITION. A host that runs a script (R89 to R93): it issues its operations one at a time, each once
the one before it is complete (R60). The machine's own step takes the transactions as they come. -/

namespace Sys2Proof.Machine

/-- The host's turn. While SEQ is not IDLE or a transaction is not complete it has no move (R60, R207);
otherwise it issues its next operation, DIGEST with the current CFG.N (R92). So it does after a reset that
cut an ABSORB short, whose CMD write never completed: DESIGN CHOICE, the spec does not say what a host
does then (logs 2, 12). -/
def issueNext (script : List HostOp) (s : State) : List HostOp × State :=
  match s.seq, s.pending, script with
  | .idle, [], op :: rest => (rest, { s with pending := op.transactions s.n })
  | _, _, _ => (script, s)

/-- `k` steps of the machine with the host taking its turn before each: what is left of the script, and
the state reached. -/
def runScript : Nat → List HostOp → State → Host.Outcome (List HostOp × State) Fault Refusal
  | 0, script, s => .next (script, s)
  | k + 1, script, s =>
    match step (issueNext script s).2 with
    | .next t => runScript k (issueNext script s).1 t
    | .fault f => .fault f
    | .refused r => .refused r

end Sys2Proof.Machine
end

