-- ==== Sys2Proof/Safety.lean ====
section
/-! DEFINITION. The terms claims use: a legal instance, a legal numeric unit, the invariant of the
machine (R5, R7, R27, R29 to R32, R35, R202, R206), an open session, a run that reports no error. -/

namespace Sys2Proof

open Machine

/-- The bytes of P are the decimal digits of pi in order, starting with the digit 3 (R7, R23). -/
def Config.Instance.digitsOfPi (i : Config.Instance) : Prop :=
  ∀ (k : Nat) (hk : k < i.p.length),
    i.p[k] = BitVec.ofNat 8 (0x30 + ⌊Real.pi * 10 ^ k⌋₊ % 10)

/-- A datum of magnitude at most 1.0 (P2 of R131): finite data are ordered as their patterns are. -/
abbrev Machine.fAtMostOne (u : F64) : Prop := (fabs u).toNat ≤ fOne.toNat

/-- P1 of R131: COS(+0) = 1.0 and SIN(+0) = +0. -/
abbrev Config.NumUnit.P1 (num : Config.NumUnit) : Prop := cosOf num 0 = fOne ∧ sinOf num 0 = 0

/-- P2 of R131: on finite data the cosine and sine are finite and of magnitude at most 1.0. (P3, that a
result depends on the argument alone, holds because they are functions.) -/
def Config.NumUnit.P2 (num : Config.NumUnit) : Prop :=
  ∀ u : F64, fFinite u = true → fAtMostOne (cosOf num u) ∧ fAtMostOne (sinOf num u)

namespace Machine

/-- CFG.N is 0, as after reset, or the N of the current or last session, which was legal (R31). -/
abbrev State.ConfigOk (s : State) : Prop := s.n = 0 ∨ legalSize s.inst s.n = true

/-- While VALID = 1, N is legal (R31) and ERR = 0 (R32); ERRINFO is 0 unless an exception recorded it
(R35). -/
abbrev State.StatusOk (s : State) : Prop :=
  (s.valid = true → legalSize s.inst s.n = true ∧ s.err = .noError) ∧
    (s.err = .noError → s.errInfo = 0)

/-- WPTR <= N (R30), H[0, N) holds values once a CREATE has set N (R20, R29), and B[0, WPTR) holds the
bytes pushed (R25). -/
abbrev State.BuffersOk (s : State) : Prop :=
  s.wptr.toNat ≤ s.n.toNat ∧ s.h.filled s.n.toNat = true ∧ s.b.filled s.wptr.toNat = true

/-- While an ABSORB runs there is a session with bytes pushed (R174), and the CMD write that started it
is the host transaction being served (R60, R207). -/
abbrev State.BusyOk (s : State) : Prop :=
  s.seq ≠ .idle → s.valid = true ∧ s.wptr ≠ 0 ∧
    s.pending.head?.bind (fun t => (readOperation t.words).toOption) = some .absorb

/-- (SEQ, RND) is a pair of R202 or R206, and the registers the next micro-operation reads hold what the
ones before it wrote: B after PAD, a after PACK, and p = a after MIX (R27). -/
abbrev State.SequenceOk (s : State) : Prop :=
  ((s.seq = .idle ∨ s.seq = .pad ∨ s.seq = .pack) → s.rnd = 0 ∨ s.rnd = 78) ∧
  (s.seq = .pack → s.b.filled s.n.toNat = true) ∧
  ((s.seq = .mix ∨ s.seq = .diffuse) → s.rnd ∈ roundConstants) ∧
  ((s.seq = .mix ∨ s.seq = .diffuse ∨ s.seq = .fold) → s.a.filled (wordCount s) = true) ∧
  ((s.seq = .diffuse ∨ s.seq = .fold) → ∀ k, k < wordCount s → s.p.read k = s.a.read k) ∧
  (s.seq = .fold → s.rnd = 78)

/-- The invariant every step keeps: the instance is legal (R7), every register file is in canonical form
and within its capacity (R29, R50), and the relations above. -/
abbrev State.Inv (s : State) : Prop :=
  s.inst.wellFormed = true ∧ Memory.wf s = true ∧ s.ConfigOk ∧ s.StatusOk ∧ s.BuffersOk ∧
    s.BusyOk ∧ s.SequenceOk

/-- A session exists and the engine accepts transactions (R32, R37). -/
abbrev State.SessionOpen (s : State) : Prop := s.valid = true ∧ s.seq = .idle

/-- The reset input is not asserted for this step (R250). -/
abbrev State.NoReset (s : State) : Prop := s.resetLine.head? ≠ some true

/-- The host transactions R55 makes legal in a state: direction, width and offset. -/
abbrev State.legalAccess (s : State) (t : Transaction) : Prop :=
  (t.dir = .write ∧ t.size = .four ∧ t.addr = 0x0000) ∨
  (t.dir = .read ∧ t.size = .four ∧
    (t.addr = 0x0004 ∨ t.addr = 0x0008 ∨ t.addr = 0x000C ∨ t.addr = 0x0010 ∨ t.addr = 0x0014)) ∨
  (t.dir = .write ∧ t.size = .one ∧ t.addr = 0x0020) ∨
  (t.dir = .read ∧ t.size = .one ∧ s.valid = true ∧ 0x1000 ≤ t.addr.toNat ∧
    t.addr.toNat < min (0x1000 + s.n.toNat) 0x2000)

/-- H[0, N), where it all holds values: what DIGEST reads (R180). -/
def State.digest (s : State) : Option (List Byte) := valuesOf (s.readH 0 s.n.toNat)

/-- B[0, WPTR), where it all holds values: the bytes pushed (R30). -/
def State.block (s : State) : Option (List Byte) := valuesOf (s.readB 0 s.wptr.toNat)

/-- The magnitude from which RN gives the infinity, 2^1024 - 2^970 (R125). -/
def overflowBound : Nat := (2 ^ 54 - 1) * 2 ^ 970

/-- The magnitude of the finite datum with a given magnitude pattern, in units of 2^-1074 (R124). -/
def patternUnits (pattern : Nat) : Nat := fUnits (BitVec.ofNat 64 pattern)

/-- How far a finite datum's magnitude is from the exact value num / den, in units of 2^-1074 / den. -/
def roundError (pattern num den : Nat) : Nat :=
  ((patternUnits pattern * den : Int) - (num * fScale : Int)).natAbs

/-- The significand of cvt_u64_f64 after rounding, as the algorithm of R126 computes it from n and
s = e - 52. -/
def conversionSignificand (n s : Nat) : Nat :=
  let q := n / 2 ^ s
  let r := n % 2 ^ s
  let half := 2 ^ (s - 1)
  if half < r ∨ (r = half ∧ q % 2 = 1) then q + 1 else q

end Machine

end Sys2Proof
end

