-- ==== Sys2Proof/Certificates/Slice0/Obligations.lean ====
section
/-! DEFINITION. The statements for the provers. Where one names `pending`, `replies` or `resetLine`, that
clause is the model's own form of the host's side and of the reset input (logs 1 and 2), and no rule of
the spec is cited for it. -/

open Sys2Proof Sys2Proof.Machine

/-! ## Encoding -/

/-- Decoding the encoding of a well-formed instruction gives it back (R82, R83, R86, R87). -/
def Obligations.DecodeEncodeRoundTrip : Prop :=
  ∀ i : Instr, i.wellFormed = true → decode (encode i) = .ok i

/-- Which command words are illegal, as R84 lists them. -/
def Obligations.IllegalCommandWordsAreTheListed : Prop :=
  ∀ c : Reg,
    decode (.command c) = .error (.illegalCommand c) ↔
      (c.extractLsb' 24 8 = 0x00 ∨ 0x03 ≤ (c.extractLsb' 24 8).toNat ∨
        (c.extractLsb' 24 8 = 0x01 ∧ c.extractLsb' 17 7 ≠ 0) ∨
        (c.extractLsb' 24 8 = 0x02 ∧ c.extractLsb' 0 24 ≠ 0))

/-- A command word that decodes is the encoding of what it decodes to: no bit of it is dropped. -/
def Obligations.CommandDecodingDropsNoBit : Prop :=
  ∀ (c : Reg) (i : Instr), decode (.command c) = .ok i → encode i = .command c

/-- The transactions that are bus operations are those R55 allows: direction, width and offset as
listed (RDH at every offset of the window; its own check is another statement). -/
def Obligations.BusOperationsAreTheLegalAccesses : Prop :=
  ∀ t : Transaction,
    (∃ i, decode t.words = .ok i) ↔
      ((t.dir = .write ∧ t.size = .four ∧ t.addr = 0x0000) ∨
        (t.dir = .read ∧ t.size = .four ∧
          (t.addr = 0x0004 ∨ t.addr = 0x0008 ∨ t.addr = 0x000C ∨ t.addr = 0x0010 ∨ t.addr = 0x0014)) ∨
        (t.dir = .write ∧ t.size = .one ∧ t.addr = 0x0020) ∨
        (t.dir = .read ∧ t.size = .one ∧ 0x1000 ≤ t.addr.toNat ∧ t.addr.toNat ≤ 0x1FFF))

/-- A few words written out from 30_encoding.md decode to what they stand for. -/
def Obligations.SampleWordsDecode : Prop :=
  decode (.command 0x01010008) = .ok (.create 8 .cross) ∧
  decode (.command 0x02000000) = .ok .absorb ∧
  decode (.transaction 0xA0000 0x01000080) = .ok (.wrcmd 0x01000080) ∧
  decode (.transaction 0x80020 0x61) = .ok (.push 0x61) ∧
  decode (.transaction 0x0107F 0) = .ok (.rdh 127) ∧
  decode (.selector 0x3) = .ok .mix ∧
  decode (.selector 0xD) = .ok .foldX

/-! ## The step -/

/-- A step without reset runs the operation fetched; what is fetched is the sequencer's micro-operation
while SEQ is not IDLE, else the operation of the transaction being served, else IDLE (R201, R207). -/
def Obligations.StepRunsTheDecodedOperation : Prop :=
  ∀ (s : State), s.NoReset →
    (∀ i, fetch s = .ok i → step s = exec i { s with resetLine := s.resetLine.tail }) ∧
    (s.seq ≠ .idle → fetch s = decode (.selector (selectorWord s))) ∧
    (s.seq = .idle → s.pending = [] → fetch s = .ok .idle) ∧
    (∀ t ts, s.seq = .idle → s.pending = t :: ts → fetch s = readOperation t.words)

/-- A CMD write whose word is a command runs that command; its carrier is not an operation of its own
(R86). -/
def Obligations.CommandWriteRunsItsCommand : Prop :=
  ∀ (s : State) (w : Reg) (ts : List Transaction) (i : Instr), s.NoReset → s.seq = .idle →
    s.pending = cmdWrite w :: ts → decode (.command w) = .ok i →
      step s = exec i { s with resetLine := s.resetLine.tail } ∧
      exec (.wrcmd w) { s with resetLine := s.resetLine.tail } =
        exec i { s with resetLine := s.resetLine.tail }

/-- A transaction that is none of R55's, RDH without a session or past N among them, gets BusError and
changes no engine state (R56, R223). -/
def Obligations.IllegalTransactionChangesNothing : Prop :=
  ∀ (s : State) (t : Transaction) (ts : List Transaction), s.NoReset → s.seq = .idle →
    s.pending = t :: ts → ¬ s.legalAccess t →
      step s = .next { s with
        pending := ts, replies := .busError :: s.replies, resetLine := s.resetLine.tail }

/-- The reset event, whatever the engine was doing: every register as R252 lists it (R250, R251). What
becomes of the host's transactions is the model's choice (log 2). -/
def Obligations.ResetEventClearsTheEngine : Prop :=
  ∀ (s : State) (rest : List Bool), s.resetLine = true :: rest →
    step s = .next
      { inst := s.inst, h := [], b := [], a := [], p := [], n := 0, mode := .elementwise,
        valid := false, err := .noError, errInfo := 0, wptr := 0, seq := .idle, rnd := 0,
        pending := if s.seq = .idle then s.pending else s.pending.tail,
        replies := s.replies, resetLine := rest }

/-- The state right after reset as R252 lists it, for every instance: H, B, a and p hold no value, P and
NMAX are the instance's. -/
def Obligations.ResetValuesAreTheListed : Prop :=
  ∀ inst : Config.Instance, ∃ s : State, s = State.resetFor inst ∧
    (∀ i, s.h.read i = none ∧ s.b.read i = none ∧ s.a.read i = none ∧ s.p.read i = none) ∧
    s.inst.p = inst.p ∧ s.n = 0 ∧ s.mode = .elementwise ∧ s.valid = false ∧ s.err = .noError ∧
    s.errInfo = 0 ∧ s.wptr = 0 ∧ s.seq = .idle ∧ s.rnd = 0 ∧ s.inst.nmax = inst.nmax ∧
    cfgWord s = 0 ∧ statusWord s = 0 ∧ fillWord s = 0

/-- IDLE with no transaction to serve changes nothing (R201). -/
def Obligations.IdleDoesNothing : Prop := ∀ s : State, exec .idle s = .next s

/-! ## Commands -/

/-- CREATE: on a legal size a new session with H = P[0, N), else InvalidConfig; all else unchanged
(R170, R171, R226). -/
def Obligations.CreateOpensASessionOrRaises : Prop :=
  ∀ (s : State) (n : BitVec 16) (mode : FoldMode),
    (8 ≤ n.toNat → n.toNat % 8 = 0 → n.toNat ≤ s.inst.nmax.toNat → s.inst.nmax.toNat ≤ s.inst.lp →
      ∃ t, exec (.create n mode) s = .next t ∧
        (∀ i, i < n.toNat → t.h.read i = s.inst.p[i]?) ∧
        (∀ i, n.toNat ≤ i → t.h.read i = s.h.read i) ∧
        t = { s with
          h := t.h, n := n, mode := mode, wptr := 0, err := .noError, errInfo := 0, valid := true,
          pending := s.pending.tail, replies := .ok :: s.replies }) ∧
    ((n.toNat < 8 ∨ n.toNat % 8 ≠ 0 ∨ s.inst.nmax.toNat < n.toNat) →
      exec (.create n mode) s = .next { s with
        err := if s.err = .noError then .invalidConfig else s.err,
        errInfo := if s.err = .noError then createWord n mode else s.errInfo,
        valid := false, pending := s.pending.tail, replies := .ok :: s.replies })

/-- ABSORB: NoSession, the no-op on an empty block, or the start of the sequencer (R174, R175, R226). -/
def Obligations.AbsorbStartsOrIsNoOpOrRaises : Prop :=
  ∀ s : State,
    (s.valid = false →
      exec .absorb s = .next { s with
        err := if s.err = .noError then .noSession else s.err,
        errInfo := if s.err = .noError then 0x02000000 else s.errInfo,
        valid := false, pending := s.pending.tail, replies := .ok :: s.replies }) ∧
    (s.valid = true → s.wptr = 0 →
      exec .absorb s = .next { s with pending := s.pending.tail, replies := .ok :: s.replies }) ∧
    (s.valid = true → s.wptr ≠ 0 → exec .absorb s = .next { s with seq := .pad })

/-- ABSORB with no bytes pushed changes no register and raises nothing (R175). -/
def Obligations.AbsorbOfNothingChangesNoRegister : Prop :=
  ∀ s : State, s.valid = true → s.wptr = 0 →
    ∃ t, exec .absorb s = .next t ∧
      t = { s with pending := s.pending.tail, replies := .ok :: s.replies }

/-- WRCMD is the command its word stands for (R81): an ABSORB that is accepted and a CREATE of a legal
size complete with their effect; a word that is no command raises IllegalCommand whatever VALID is
(R224). -/
def Obligations.WrcmdDeliversItsWord : Prop :=
  ∀ (s : State) (w : Reg),
    (w = 0x02000000 → exec (.wrcmd w) s = exec .absorb s) ∧
    (w.extractLsb' 17 15 = 0x0080 → exec (.wrcmd w) s =
      exec (.create (w.extractLsb' 0 16) (if w.getLsbD 16 then .cross else .elementwise)) s) ∧
    (w = 0x02000000 → s.valid = true → s.wptr ≠ 0 →
      exec (.wrcmd w) s = .next { s with seq := .pad }) ∧
    (w.extractLsb' 17 15 = 0x0080 → 8 ≤ (w.extractLsb' 0 16).toNat →
      (w.extractLsb' 0 16).toNat % 8 = 0 → (w.extractLsb' 0 16).toNat ≤ s.inst.nmax.toNat →
      s.inst.nmax.toNat ≤ s.inst.lp →
      ∃ t, exec (.wrcmd w) s = .next t ∧
        (∀ i, i < (w.extractLsb' 0 16).toNat → t.h.read i = s.inst.p[i]?) ∧
        (∀ i, (w.extractLsb' 0 16).toNat ≤ i → t.h.read i = s.h.read i) ∧
        t = { s with
          h := t.h, n := w.extractLsb' 0 16,
          mode := if w.getLsbD 16 then .cross else .elementwise,
          wptr := 0, err := .noError, errInfo := 0, valid := true,
          pending := s.pending.tail, replies := .ok :: s.replies }) ∧
    (w.extractLsb' 17 15 ≠ 0x0080 → w ≠ 0x02000000 →
      exec (.wrcmd w) s = .next { s with
        err := if s.err = .noError then .illegalCommand else s.err,
        errInfo := if s.err = .noError then w else s.errInfo,
        valid := false, pending := s.pending.tail, replies := .ok :: s.replies })

/-- The empty input (R183): right after CREATE, and after an ABSORB with nothing pushed, a session of N is
open with no error recorded, and the digest is P[0, N). -/
def Obligations.EmptyInputDigestIsThePrefixOfP : Prop :=
  ∀ (s t : State) (n : BitVec 16) (mode : FoldMode), legalSize s.inst n = true →
    exec (.create n mode) s = .next t →
      t.valid = true ∧ t.err = .noError ∧ t.n = n ∧ t.digest = some (s.inst.p.take n.toNat) ∧
      ∃ u, exec .absorb t = .next u ∧
        u.valid = true ∧ u.err = .noError ∧ u.n = n ∧ u.digest = some (s.inst.p.take n.toNat)

/-! ## Bus operations -/

/-- PUSH: NoSession before Overflow before the store of the byte at B[WPTR] (R172, R173, R225, R226). -/
def Obligations.PushStoresTheByteOrRaises : Prop :=
  ∀ (s : State) (b : Byte),
    (s.valid = false →
      exec (.push b) s = .next { s with
        err := if s.err = .noError then .noSession else s.err,
        errInfo := if s.err = .noError then b.setWidth 32 else s.errInfo,
        valid := false, pending := s.pending.tail, replies := .ok :: s.replies }) ∧
    (s.valid = true → s.wptr = s.n →
      exec (.push b) s = .next { s with
        err := if s.err = .noError then .overflow else s.err,
        errInfo := if s.err = .noError then b.setWidth 32 else s.errInfo,
        valid := false, pending := s.pending.tail, replies := .ok :: s.replies }) ∧
    (s.valid = true → s.wptr ≠ s.n → s.wptr.toNat < s.inst.nmax.toNat →
      ∃ t, exec (.push b) s = .next t ∧
        t.b.read s.wptr.toNat = some b ∧
        (∀ i, i ≠ s.wptr.toNat → t.b.read i = s.b.read i) ∧
        t = { s with
          b := t.b, wptr := s.wptr + 1, pending := s.pending.tail, replies := .ok :: s.replies })

/-- RDH: the byte H[i] inside the window of an open session, BusError elsewhere; nothing is written
(R57, R178). -/
def Obligations.RdhReturnsTheByteOrBusError : Prop :=
  ∀ (s : State) (i : BitVec 12),
    ((s.valid = false ∨ s.n.toNat ≤ i.toNat) →
      exec (.rdh i) s = .next { s with
        pending := s.pending.tail, replies := .busError :: s.replies }) ∧
    (∀ x, s.valid = true → i.toNat < s.n.toNat → s.h.read i.toNat = some x →
      exec (.rdh i) s = .next { s with
        pending := s.pending.tail, replies := .byte x :: s.replies })

/-- The five register reads return the registers as laid out, reserved bits zero, in every state, and
write nothing (R31 to R35, R179, R221). -/
def Obligations.RegisterReadsReturnTheLayouts : Prop :=
  ∀ s : State,
    (∃ w, exec .rdstatus s = .next { s with
        pending := s.pending.tail, replies := .word w :: s.replies } ∧
      w.toNat = (if s.valid then 1 else 0) +
        16 * (match s.err with
          | .noError => 0 | .invalidConfig => 1 | .illegalCommand => 2 | .noSession => 3
          | .overflow => 4)) ∧
    (∃ w, exec .rdcfg s = .next { s with
        pending := s.pending.tail, replies := .word w :: s.replies } ∧
      w.toNat = s.n.toNat + 65536 * (match s.mode with | .elementwise => 0 | .cross => 1)) ∧
    (∃ w, exec .rdcap s = .next { s with
        pending := s.pending.tail, replies := .word w :: s.replies } ∧
      w.toNat = s.inst.nmax.toNat) ∧
    (∃ w, exec .rdfill s = .next { s with
        pending := s.pending.tail, replies := .word w :: s.replies } ∧
      w.toNat = s.wptr.toNat) ∧
    exec .rderrinfo s = .next { s with
      pending := s.pending.tail, replies := .word s.errInfo :: s.replies }

/-! ## Micro-operations -/

/-- PAD copies P[0, N-L) into B[L, N) and changes nothing else but SEQ (R101). -/
def Obligations.PadFillsTheBlockFromP : Prop :=
  ∀ s : State, s.wptr.toNat ≤ s.n.toNat → s.n.toNat ≤ s.inst.nmax.toNat →
    s.inst.nmax.toNat ≤ s.inst.lp →
    ∃ t, exec .pad s = .next t ∧
      (∀ j, j < s.n.toNat - s.wptr.toNat → t.b.read (s.wptr.toNat + j) = s.inst.p[j]?) ∧
      (∀ i, (i < s.wptr.toNat ∨ s.n.toNat ≤ i) → t.b.read i = s.b.read i) ∧
      t = { s with b := t.b, seq := .pack }

/-- PACK: byte 8k+m of B is bits [8m, 8m+8) of a[k]; RND is 13 (R103). -/
def Obligations.PackLaysBytesLittleEndian : Prop :=
  ∀ s : State, s.b.filled (8 * wordCount s) = true → s.n.toNat ≤ s.inst.nmax.toNat →
    ∃ t, exec .pack s = .next t ∧
      (∀ k, k < wordCount s → ∃ w, t.a.read k = some w ∧
        ∀ m, m < 8 → s.b.read (8 * k + m) = some (w.extractLsb' (8 * m) 8)) ∧
      (∀ k, wordCount s ≤ k → t.a.read k = s.a.read k) ∧
      t = { s with a := t.a, rnd := 13, seq := .mix }

/-- MIX is lane-wise: word k of a and of p becomes mixword of a[k] and RND, and nothing else but SEQ
changes (R121, R122). -/
def Obligations.MixTransformsEveryLane : Prop :=
  ∀ s : State, s.a.filled (wordCount s) = true → s.n.toNat ≤ s.inst.nmax.toNat →
    ∃ t, exec .mix s = .next t ∧
      (∀ k, k < wordCount s →
        t.a.read k = (s.a.read k).map (fun w => mixword s.inst.num w s.rnd) ∧
        t.p.read k = (s.a.read k).map (fun w => mixword s.inst.num w s.rnd)) ∧
      (∀ k, wordCount s ≤ k → t.a.read k = s.a.read k ∧ t.p.read k = s.p.read k) ∧
      t = { s with a := t.a, p := t.p, seq := .diffuse }

/-- DIFFUSE updates every byte of H by the four terms of every word of a, steps RND and takes the round
loop on its new value (R140, R204). -/
def Obligations.DiffuseUpdatesEveryByte : Prop :=
  ∀ s : State, s.a.filled (wordCount s) = true → s.h.filled s.n.toNat = true →
    s.n.toNat ≤ s.inst.nmax.toNat →
    ∃ (t : State) (words : List Word), words.length = wordCount s ∧ (∀ k, k < wordCount s → s.a.read k = words[k]?) ∧
      exec .diffuse s = .next t ∧
      (∀ i, i < s.n.toNat → t.h.read i = (s.h.read i).map (fun x =>
        words.foldl (fun (x : Byte) (w : Word) => x ^^^ w.setWidth 8 ^^^ (w <<< 11).setWidth 8 ^^^
          (w <<< 13).setWidth 8 ^^^ (w <<< 17).setWidth 8) x)) ∧
      (∀ i, s.n.toNat ≤ i → t.h.read i = s.h.read i) ∧
      t = { s with
        h := t.h, rnd := s.rnd + 13, seq := if s.rnd + 13 ≤ 75 then .mix else .fold }

/-- FOLD with MODE = 0: H[i] becomes H[i] ^ R[i], R[8k+m] being byte m of p[k]; WPTR is 0, SEQ is IDLE,
and the CMD write of the ABSORB completes (R160, R161, R207). -/
def Obligations.FoldElementwiseAddsSerialisedWords : Prop :=
  ∀ s : State, s.p.filled (wordCount s) = true → s.h.filled s.n.toNat = true →
    s.n.toNat % 8 = 0 → s.n.toNat ≤ s.inst.nmax.toNat →
    ∃ t, exec .foldE s = .next t ∧
      (∀ i, i < s.n.toNat → t.h.read i = (s.h.read i).bind (fun x =>
        (s.p.read (i / 8)).map (fun (w : Word) => x ^^^ lowByte (w >>> (8 * (i % 8)))))) ∧
      (∀ i, s.n.toNat ≤ i → t.h.read i = s.h.read i) ∧
      t = { s with
        h := t.h, wptr := 0, seq := .idle, pending := s.pending.tail, replies := .ok :: s.replies }

/-- FOLD with MODE = 1: H[i] receives R[j] for every j in [0, N) but i (R160, R162, R207). -/
def Obligations.FoldCrossAddsEveryOtherByte : Prop :=
  ∀ s : State, s.p.filled (wordCount s) = true → s.h.filled s.n.toNat = true →
    s.n.toNat % 8 = 0 → s.n.toNat ≤ s.inst.nmax.toNat →
    ∃ (t : State) (words : List Word), words.length = wordCount s ∧ (∀ k, k < wordCount s → s.p.read k = words[k]?) ∧
      exec .foldX s = .next t ∧
      (∀ i, i < s.n.toNat → t.h.read i = (s.h.read i).map (fun x =>
        (List.range s.n.toNat).foldl (fun x j => if j = i then x else
          x ^^^ lowByte (words.getD (j / 8) 0 >>> (8 * (j % 8)))) x)) ∧
      (∀ i, s.n.toNat ≤ i → t.h.read i = s.h.read i) ∧
      (∀ i, i < s.n.toNat → t.h.read i = (s.h.read i).map (fun x =>
        x ^^^ (List.range s.n.toNat).foldl (fun y j =>
          y ^^^ lowByte (words.getD (j / 8) 0 >>> (8 * (j % 8)))) 0 ^^^
          lowByte (words.getD (i / 8) 0 >>> (8 * (i % 8))))) ∧
      t = { s with
        h := t.h, wptr := 0, seq := .idle, pending := s.pending.tail, replies := .ok :: s.replies }

/-- The three shifted terms of DIFFUSE vanish: it adds one byte, the exclusive-or of the low bytes of all
words, to every byte, and the order of the words is immaterial (R141). -/
def Obligations.DiffusionIsOneByte : Prop :=
  (∀ (w : Word) (k : Nat), 8 ≤ k → lowByte (w <<< k) = 0) ∧
  (∀ (words : List Word) (x : Byte), diffuse words x = x ^^^ diffusionByte words) ∧
  (∀ (words words' : List Word) (x : Byte), words.Perm words' → diffuse words x = diffuse words' x)

/-- The cross fold adds T ^ R[i], T being the exclusive-or of all bytes of R (R162). -/
def Obligations.CrossFoldAddsTotalAndOwnByte : Prop :=
  ∀ (h r : List Byte) (i : Nat) (x y : Byte), h.length = r.length → h[i]? = some x → r[i]? = some y →
    (foldCross h r)[i]? = some (x ^^^ r.foldl (fun a b => a ^^^ b) 0 ^^^ y)

/-- The two fold modes differ by the byte T added to every H[i], and coincide exactly when T = 0
(R163). -/
def Obligations.FoldModesAgreeExactlyWhenTotalIsZero : Prop :=
  ∀ h r : List Byte, h.length = r.length →
    (foldCross h r =
      (foldElementwise h r).map (fun x => x ^^^ r.foldl (fun a b => a ^^^ b) 0)) ∧
    (foldCross h r = foldElementwise h r ↔ r.foldl (fun a b => a ^^^ b) 0 = 0)

/-- R[8k+m] is byte m of word k, and packing R gives p back (R160). -/
def Obligations.PackingInvertsSerialising : Prop :=
  ∀ words : List Word,
    (∀ k m, m < 8 → ((serialise words)[8 * k + m]?).map BitVec.toNat =
      (words[k]?).map (fun (w : Word) => w.toNat / 2 ^ (8 * m) % 256)) ∧
    (serialise words).length = 8 * words.length ∧
    packWords words.length (serialise words) = words

/-- An operation that meets cells without a value (R21; R252 forbids a substituted one) completes, and its
results hold no value exactly where one it is computed from held none: the model's choice (log 3). All else
is as where they hold values. -/
def Obligations.CellsWithoutValuePropagate : Prop :=
  ∀ s : State, s.n.toNat ≤ s.inst.nmax.toNat →
    (∃ t, exec .pack s = .next t ∧
      (∀ k, k < wordCount s →
        (t.a.read k = none ↔ ∃ m, m < 8 ∧ s.b.read (8 * k + m) = none)) ∧
      (∀ k, wordCount s ≤ k → t.a.read k = s.a.read k) ∧
      t = { s with a := t.a, rnd := 13, seq := .mix }) ∧
    (∃ t, exec .mix s = .next t ∧
      (∀ k, k < wordCount s →
        (t.a.read k = none ↔ s.a.read k = none) ∧ (t.p.read k = none ↔ s.a.read k = none)) ∧
      (∀ k, wordCount s ≤ k → t.a.read k = s.a.read k ∧ t.p.read k = s.p.read k) ∧
      t = { s with a := t.a, p := t.p, seq := .diffuse }) ∧
    (∃ t, exec .diffuse s = .next t ∧
      (∀ i, i < s.n.toNat →
        (t.h.read i = none ↔ s.h.read i = none ∨ ∃ k, k < wordCount s ∧ s.a.read k = none)) ∧
      (∀ i, s.n.toNat ≤ i → t.h.read i = s.h.read i) ∧
      t = { s with
        h := t.h, rnd := s.rnd + 13, seq := if s.rnd + 13 ≤ 75 then .mix else .fold }) ∧
    (s.n.toNat % 8 = 0 → ∃ t, exec .foldE s = .next t ∧
      (∀ i, i < s.n.toNat →
        (t.h.read i = none ↔ s.h.read i = none ∨ s.p.read (i / 8) = none)) ∧
      (∀ i, s.n.toNat ≤ i → t.h.read i = s.h.read i) ∧
      t = { s with
        h := t.h, wptr := 0, seq := .idle, pending := s.pending.tail, replies := .ok :: s.replies }) ∧
    (s.n.toNat % 8 = 0 → ∃ t, exec .foldX s = .next t ∧
      (∀ i, i < s.n.toNat → (t.h.read i = none ↔
        s.h.read i = none ∨ ∃ j, j < s.n.toNat ∧ j ≠ i ∧ s.p.read (j / 8) = none)) ∧
      (∀ i, s.n.toNat ≤ i → t.h.read i = s.h.read i) ∧
      t = { s with
        h := t.h, wptr := 0, seq := .idle, pending := s.pending.tail, replies := .ok :: s.replies }) ∧
    (∀ i : BitVec 12, s.valid = true → i.toNat < s.n.toNat → s.h.read i.toNat = none →
      exec (.rdh i) s = .next { s with
        pending := s.pending.tail, replies := .noValue :: s.replies })

/-! ## The whole machine -/

/-- Every step keeps the invariant (R5, R7, R27, R29 to R32, R35, R174, R202, R206, R207), from every state
that has it. That the CMD write of a running ABSORB heads `pending` (in `State.BusyOk`) is the model's
choice (log 1). -/
def Obligations.StepKeepsTheInvariant : Prop :=
  ∀ s t : State, s.Inv → step s = .next t → t.Inv

/-- The state after reset has the invariant, for every legal instance; `State.reset` is that of the
reference instance (the model's choice, log 4). -/
def Obligations.ResetHasTheInvariant : Prop :=
  (∀ inst : Config.Instance, inst.wellFormed = true → (State.resetFor inst).Inv) ∧
    State.reset = State.resetFor referenceInstance ∧ State.reset.Inv

/-- From a state with the invariant no step faults or is refused: no index past a file is reached
(R50). -/
def Obligations.InvariantStatesAlwaysStep : Prop :=
  ∀ s : State, s.Inv → ∃ t, step s = .next t

/-- An accepted ABSORB runs the accepting step and thirteen micro-steps, and leaves in H what the function
of R176 gives; WPTR = 0, RND = 78, SEQ = IDLE, and the CMD write completes (R174, R202, R208). -/
def Obligations.AbsorbComputesTheBlockFunction : Prop :=
  ∀ (s : State) (w : Transaction) (rest : List Transaction), s.Inv → s.SessionOpen →
    s.wptr ≠ 0 → s.resetLine = [] → s.pending = w :: rest → readOperation w.words = .ok .absorb →
    ∃ (t : State) (bytes block : List Byte),
      s.digest = some bytes ∧ s.block = some block ∧
      Host.Core.run core 14 s = .next t ∧
      t.digest = some (absorbBlock s.inst s.n.toNat s.mode bytes block) ∧
      t = { s with
        h := t.h, b := t.b, a := t.a, p := t.p, wptr := 0, rnd := 78, seq := .idle,
        pending := rest, replies := .ok :: s.replies }

/-- Every ABSORB in progress ends within thirteen steps, with SEQ idle and the CMD write answered OK
(R207, R266). -/
def Obligations.EveryAbsorbCompletes : Prop :=
  ∀ s : State, s.Inv → s.seq ≠ .idle → s.resetLine = [] →
    ∃ (k : Nat) (t : State), k ≤ 13 ∧ Host.Core.run core k s = .next t ∧ t.seq = .idle ∧
      t.replies = .ok :: s.replies

/-- While SEQ is not IDLE no transaction is served, but that the ABSORB's own write completes when SEQ
returns to IDLE (R207). -/
def Obligations.HostHasNoMoveDuringAnAbsorb : Prop :=
  ∀ s t : State, s.NoReset → s.seq ≠ .idle → step s = .next t →
    (t.seq ≠ .idle ∧ t.pending = s.pending ∧ t.replies = s.replies) ∨
    (s.seq = .fold ∧ t.seq = .idle ∧ t.pending = s.pending.tail ∧ t.replies = .ok :: s.replies)

/-- No step changes the instance: CAP and P are constants (R7, R22, R33). -/
def Obligations.StepKeepsTheInstance : Prop :=
  ∀ s t : State, step s = .next t → t.inst = s.inst

/-- The first exception is the one kept: an operation that leaves ERR set leaves ERR and ERRINFO as they
were, and the only operations that clear it are a CREATE of a legal size and the WRCMD that delivers one
(R226, R228). -/
def Obligations.FirstExceptionIsKeptUntilCreate : Prop :=
  ∀ (i : Instr) (s t : State), exec i s = .next t → s.err ≠ .noError →
    (t.err = s.err ∧ t.errInfo = s.errInfo) ∨
    (t.err = .noError ∧ t.errInfo = 0 ∧ t.valid = true ∧ ∃ n mode, legalSize s.inst n = true ∧
      (i = .create n mode ∨ i = .wrcmd (createWord n mode)))

/-- An operation that records an exception leaves VALID clear, and only the CREATE of a legal size, or the
WRCMD that delivers one, sets it (R226, R187). -/
def Obligations.OnlyCreateOpensASession : Prop :=
  ∀ (i : Instr) (s t : State), exec i s = .next t →
    (s.err = .noError → t.err ≠ .noError → t.valid = false) ∧
    (s.valid = false → t.valid = true →
      ∃ n mode, legalSize s.inst n = true ∧ (i = .create n mode ∨ i = .wrcmd (createWord n mode)))

/-- H is written by CREATE, DIFFUSE and FOLD only (R20), WRCMD delivering a CREATE. -/
def Obligations.DigestStateWrittenOnlyByCreateDiffuseFold : Prop :=
  ∀ (i : Instr) (s t : State), exec i s = .next t →
    (∀ n mode, i ≠ .create n mode ∧ i ≠ .wrcmd (createWord n mode)) → i ≠ .diffuse → i ≠ .foldE →
    i ≠ .foldX → t.h = s.h

/-- CFG is written by a successful CREATE only (R31). -/
def Obligations.ConfigWrittenOnlyByCreate : Prop :=
  ∀ (i : Instr) (s t : State), exec i s = .next t →
    (t.n = s.n ∧ t.mode = s.mode) ∨
    (∃ n mode, legalSize s.inst n = true ∧ t.n = n ∧ t.mode = mode ∧
      (i = .create n mode ∨ i = .wrcmd (createWord n mode)))

/-- DIGEST: N reads of the window answer H[0, N) in index order and change no register (R92, R180). -/
def Obligations.DigestReadsTheWholeState : Prop :=
  ∀ (s : State) (rest : List Transaction), s.Inv → s.SessionOpen → s.resetLine = [] →
    s.pending = digestOps s.n.toNat ++ rest →
    ∃ bytes, s.digest = some bytes ∧
      Host.Core.run core s.n.toNat s = .next { s with
        pending := rest, replies := (bytes.map Reply.byte).reverse ++ s.replies }

/-- HASH of a legal size: whatever the machine did before, a host that runs it gets OK for CREATE, every
PUSH and every ABSORB, and then the bytes of the state that R176 gives for the message's pieces. -/
def Obligations.HashReturnsTheDigestOfItsMessage : Prop :=
  ∀ (s : State) (n m : Nat) (message : List Byte),
    s.Inv → s.seq = .idle → s.resetLine = [] → s.pending = [] →
    8 ≤ n → n % 8 = 0 → n ≤ s.inst.nmax.toNat → m ≤ 1 →
    ∃ (k : Nat) (t : State),
      runScript k (ScriptLine.hash n m message).assemble s = .next ([], t) ∧
      t.SessionOpen ∧ t.err = .noError ∧ t.pending = [] ∧
      t.replies =
        ((absorbBlocks s.inst n (if m = 1 then .cross else .elementwise)
          (messagePieces n message)).map Reply.byte).reverse ++
        List.replicate (1 + message.length + (messagePieces n message).length) Reply.ok ++ s.replies

/-! ## The digest as a function -/

/-- The blocks of a message commute: H is updated by a value that depends on the block alone (R165). -/
def Obligations.BlocksCommute : Prop :=
  ∀ (i : Config.Instance) (n : Nat) (mode : FoldMode) (h d e : List Byte),
    absorbBlock i n mode (absorbBlock i n mode h d) e =
      absorbBlock i n mode (absorbBlock i n mode h e) d

/-- Absorbing the same block twice restores H (R165). -/
def Obligations.BlockAbsorbedTwiceCancels : Prop :=
  ∀ (i : Config.Instance) (n : Nat) (mode : FoldMode) (h d : List Byte),
    h.length = n → n % 8 = 0 →
      absorbBlock i n mode (absorbBlock i n mode h d) d = h

/-- Padding is not length-encoding: a short block of at least one byte and the same block with its padding
spelled out give the same H (R102 (c)). -/
def Obligations.PaddingIsNotLengthEncoding : Prop :=
  ∀ (i : Config.Instance) (n : Nat) (mode : FoldMode) (h d : List Byte),
    1 ≤ d.length → d.length ≤ n → n ≤ i.lp →
      absorbBlock i n mode h (d ++ i.p.take (n - d.length)) = absorbBlock i n mode h d

/-! ## Numerics -/

/-- RN: no finite datum is nearer to the exact value than the one chosen, a tie between two goes to the
even one, and the infinity is chosen exactly from 2^1024 - 2^970 on (R125). -/
def Obligations.RoundingIsToNearestEven : Prop :=
  ∀ num den : Nat, 0 < den →
    (roundMag num den = infPattern ↔ den * overflowBound ≤ num) ∧
    (roundMag num den < infPattern → ∀ q, q < infPattern →
      roundError (roundMag num den) num den ≤ roundError q num den ∧
      (roundError (roundMag num den) num den = roundError q num den → q ≠ roundMag num den →
        roundMag num den % 2 = 0))

/-- cvt_u64_f64 gives the value the algorithm of R126 gives; the last 1024 words of U64 convert to 2^64,
and the conversion is not injective from 2^53 on. -/
def Obligations.ConversionFollowsItsAlgorithm : Prop :=
  (∃ m n : Word, 2 ^ 53 ≤ m.toNat ∧ 2 ^ 53 ≤ n.toNat ∧ m ≠ n ∧ cvtU64F64 m = cvtU64F64 n) ∧
  ∀ n : Word,
    (2 ^ 64 - 2 ^ 10 ≤ n.toNat → fUnits (cvtU64F64 n) = 2 ^ 64 * fScale) ∧
    (n = 0 → cvtU64F64 n = 0) ∧
    (n ≠ 0 → Nat.log2 n.toNat ≤ 52 → fUnits (cvtU64F64 n) = n.toNat * fScale) ∧
    (53 ≤ Nat.log2 n.toNat →
      fUnits (cvtU64F64 n) =
        conversionSignificand n.toNat (Nat.log2 n.toNat - 52) * 2 ^ (Nat.log2 n.toNat - 52) * fScale) ∧
    fFinite (cvtU64F64 n) = true ∧ fSign (cvtU64F64 n) = false

/-- The division by M is exact, and f lies in [0, 1] (R134). -/
def Obligations.NormalisationIsExact : Prop :=
  ∀ n : Word,
    fUnits (fdiv (cvtU64F64 n) fM) * 2 ^ 64 = fUnits (cvtU64F64 n) ∧
    fFinite (fdiv (cvtU64F64 n) fM) = true ∧ fSign (fdiv (cvtU64F64 n) fM) = false ∧
    fUnits (fdiv (cvtU64F64 n) fM) ≤ fScale

/-- Step 4 of mixword is x = ceil(|x0|), exactly, for every finite datum up to 2^63 (R137, with R129,
R130). -/
def Obligations.IntegerIsTheCeilingOfTheMagnitude : Prop :=
  ∀ u : F64, fFinite u = true → fUnits u ≤ 2 ^ 63 * fScale →
    (mixInt u).toNat = (fUnits u + (fScale - 1)) / fScale

/-- Every intermediate of mixword is finite and both integers lie in [0, 2^63], for every instance whose
cosine and sine have P2 (R134). -/
def Obligations.MixwordStaysInRange : Prop :=
  ∀ num : Config.NumUnit, num.P2 → ∀ (w : Word) (h : BitVec 7), h ∈ roundConstants →
    fFinite (mixB w h) = true ∧ fFinite (mixG w h) = true ∧ fFinite (mixKc num w h) = true ∧
    fFinite (mixX0 num w h) = true ∧ fFinite (mixY0 num w h) = true ∧
    (mixInt (mixX0 num w h)).toNat ≤ 2 ^ 63 ∧ (mixInt (mixY0 num w h)).toNat ≤ 2 ^ 63

/-- mixword of the word 0 is 2^63 for every round constant and every instance with P1 (R135 (a)). -/
def Obligations.MixwordOfZero : Prop :=
  ∀ num : Config.NumUnit, num.P1 → ∀ h : BitVec 7, mixword num 0 h = 0x8000000000000000

/-! ## A script whose CREATE is refused -/

/-- HASH of a size CREATE refuses, 0 with an empty message among them: every write completes, the session is
lost with the exception recorded, and DIGEST makes as many reads as the CFG.N that was there before and
gets no byte. That HASH takes such a size, and which CFG.N its DIGEST goes by, is the model's reading of
R92 (log 12). -/
def Obligations.HashOfARefusedSizeReadsNothing : Prop :=
  ∀ (s : State) (n m : Nat) (message : List Byte),
    s.Inv → s.seq = .idle → s.resetLine = [] → s.pending = [] →
    (1 ≤ n ∨ message = []) → n ≤ 65535 → m ≤ 1 →
    (n < 8 ∨ n % 8 ≠ 0 ∨ s.inst.nmax.toNat < n) →
    ∃ (k : Nat) (t : State),
      runScript k (ScriptLine.hash n m message).assemble s = .next ([], t) ∧
      t = { s with
        valid := false,
        err := if s.err = .noError then .invalidConfig else s.err,
        errInfo := if s.err = .noError then BitVec.ofNat 32 (0x01000000 + m * 65536 + n) else s.errInfo,
        replies := List.replicate s.n.toNat Reply.busError ++
          List.replicate (1 + message.length + (messagePieces n message).length) Reply.ok ++
          s.replies }

/-! ## Cells without a value are never read -/

/-- From a state with the invariant every cell the next operation reads holds a value: no rule reads H, B,
a or p before it is written (R21, R25 to R27, R252). -/
def Obligations.NoRuleReadsACellWithoutValue : Prop :=
  ∀ (s : State) (i : Instr), s.Inv → s.NoReset → fetch s = .ok i →
    (i = .pack → s.b.filled (8 * wordCount s) = true) ∧
    (i = .mix ∨ i = .diffuse → s.a.filled (wordCount s) = true) ∧
    (i = .foldE ∨ i = .foldX → s.p.filled (wordCount s) = true) ∧
    (i = .diffuse ∨ i = .foldE ∨ i = .foldX → s.h.filled s.n.toNat = true) ∧
    (∀ k, i = .rdh k → s.valid = true → k.toNat < s.n.toNat → (s.h.read k.toNat).isSome = true)
end

