-- ==== Sys2Proof/Laws/Cells.lean ====
section
/-! SUPPORT. What reading and writing cells does, and that every write keeps the canonical form. -/

namespace Sys2Proof.Machine

variable {α : Type}

@[simp] theorem Cells.read_nil (i : Nat) : Cells.read ([] : Cells α) i = none := rfl

theorem Cells.read_write (c : Cells α) (i j : Nat) (x : α) :
    (c.write i x).read j = if j = i then some x else c.read j := by
  induction c with
  | nil => simp [Cells.write, Cells.read]
  | cons kv c ih =>
    obtain ⟨k, v⟩ := kv
    simp only [Cells.write]
    split
    · simp [Cells.read]
    · split
      · subst_vars
        simp only [Cells.read]
        split <;> simp_all
      · simp only [Cells.read, ih]
        split
        · subst_vars
          split
          · omega
          · rfl
        · rfl

@[simp] theorem Cells.read_write_self (c : Cells α) (i : Nat) (x : α) :
    (c.write i x).read i = some x := by simp [Cells.read_write]

theorem Cells.read_write_ne (c : Cells α) {i j : Nat} (x : α) (h : j ≠ i) :
    (c.write i x).read j = c.read j := by simp [Cells.read_write, h]

theorem Cells.read_eq_none {c : Cells α} {i : Nat} (h : ∀ kv ∈ c, kv.1 ≠ i) : c.read i = none := by
  induction c with
  | nil => rfl
  | cons kv c ih =>
    have hk : i ≠ kv.1 := fun e => h kv (by simp) e.symm
    simp only [Cells.read, if_neg hk]
    exact ih fun kv' hm => h kv' (by simp [hm])

theorem Cells.read_erase (c : Cells α) (i j : Nat) :
    (c.erase i).read j = if j = i then none else c.read j := by
  split
  · subst_vars
    exact Cells.read_eq_none fun kv hm => by simpa [Cells.erase] using (List.mem_filter.1 hm).2
  · rename_i hj
    induction c with
    | nil => rfl
    | cons kv c ih =>
      obtain ⟨k, v⟩ := kv
      simp only [Cells.erase] at ih ⊢
      by_cases hk : k = i
      · have hjk : j ≠ k := by omega
        simp [hk, Cells.read, ih, hk ▸ hjk]
      · simp [hk, Cells.read, ih]

/-- What a cell reads after one is put: what was put there, or what it was. -/
theorem Cells.read_put (c : Cells α) (i j : Nat) (x : Option α) :
    (c.put i x).read j = if j = i then x else c.read j := by
  cases x with
  | none => exact Cells.read_erase c i j
  | some x => exact Cells.read_write c i j x

@[simp] theorem Cells.putAll_nil (c : Cells α) (lo : Nat) : c.putAll lo [] = c := by
  cases c <;> rfl

@[simp] theorem Cells.putAll_cons (c : Cells α) (lo : Nat) (x : Option α) (xs : List (Option α)) :
    c.putAll lo (x :: xs) = (c.put lo x).putAll (lo + 1) xs := by
  cases c <;> rfl

/-- A read after a write of consecutive cells: what was put inside the range, the old cell outside. -/
theorem Cells.read_putAll (xs : List (Option α)) : ∀ (c : Cells α) (lo j : Nat),
    (c.putAll lo xs).read j =
      if lo ≤ j ∧ j < lo + xs.length then xs[j - lo]?.join else c.read j := by
  induction xs with
  | nil =>
    intro c lo j
    simp
  | cons x xs ih =>
    intro c lo j
    rw [Cells.putAll_cons, ih, Cells.read_put]
    by_cases h1 : lo + 1 ≤ j ∧ j < lo + 1 + xs.length
    · have h2 : lo ≤ j ∧ j < lo + (x :: xs).length := by simp; omega
      rw [if_pos h1, if_pos h2]
      obtain ⟨m, rfl⟩ : ∃ m, j = lo + 1 + m := ⟨j - (lo + 1), by omega⟩
      have e1 : lo + 1 + m - (lo + 1) = m := by omega
      have e2 : lo + 1 + m - lo = m + 1 := by omega
      rw [e1, e2, List.getElem?_cons_succ]
    · rw [if_neg h1]
      by_cases h3 : j = lo
      · subst h3
        simp
      · have h2 : ¬(lo ≤ j ∧ j < lo + (x :: xs).length) := by simp; omega
        rw [if_neg h2, if_neg h3]

/-- Outside the range written, a cell reads as before. -/
theorem Cells.read_putAll_outside (c : Cells α) (lo : Nat) (xs : List (Option α)) (j : Nat)
    (h : j < lo ∨ lo + xs.length ≤ j) : (c.putAll lo xs).read j = c.read j := by
  rw [Cells.read_putAll, if_neg (by omega)]

/-- Inside the range written, a cell reads what was put there. -/
theorem Cells.read_putAll_inside (c : Cells α) (lo : Nat) (xs : List (Option α)) (k : Nat)
    (h : k < xs.length) : (c.putAll lo xs).read (lo + k) = xs[k]?.join := by
  rw [Cells.read_putAll, if_pos ⟨by omega, by omega⟩]
  congr 2
  omega

/-- The same for values, which CREATE, PUSH and PAD write. -/
theorem Cells.read_putAll_some (c : Cells α) (lo : Nat) (xs : List α) (k : Nat)
    (h : k < xs.length) : (c.putAll lo (xs.map some)).read (lo + k) = xs[k]? := by
  rw [Cells.read_putAll_inside c lo _ k (by simpa using h)]
  simp [h]

theorem Cells.rising_mono {cap lo lo' : Nat} {c : Cells α} (h : c.rising cap lo = true)
    (hl : lo' ≤ lo) : c.rising cap lo' = true := by
  cases c with
  | nil => rfl
  | cons kv c =>
    obtain ⟨k, v⟩ := kv
    simp only [Cells.rising, Bool.and_eq_true, decide_eq_true_eq] at h ⊢
    exact ⟨⟨by omega, h.1.2⟩, h.2⟩

theorem Cells.rising_write {cap : Nat} (c : Cells α) : ∀ {lo i : Nat} (x : α),
    c.rising cap lo = true → lo ≤ i → i < cap → (c.write i x).rising cap lo = true := by
  induction c with
  | nil =>
    intro lo i x _ hl hc
    simp [Cells.write, Cells.rising, hl, hc]
  | cons kv c ih =>
    intro lo i x h hl hc
    obtain ⟨k, v⟩ := kv
    simp only [Cells.rising, Bool.and_eq_true, decide_eq_true_eq] at h
    simp only [Cells.write]
    split
    · rename_i hik
      simp only [Cells.rising, Bool.and_eq_true, decide_eq_true_eq]
      exact ⟨⟨hl, hc⟩, ⟨by omega, h.1.2⟩, h.2⟩
    · split
      · subst_vars
        simp only [Cells.rising, Bool.and_eq_true, decide_eq_true_eq]
        exact ⟨⟨hl, hc⟩, h.2⟩
      · simp only [Cells.rising, Bool.and_eq_true, decide_eq_true_eq]
        exact ⟨h.1, ih x h.2 (by omega) hc⟩

/-- Writing a cell of the file keeps the canonical form. -/
theorem Cells.wf_write {cap : Nat} {c : Cells α} {i : Nat} (x : α) (h : c.wf cap = true)
    (hi : i < cap) : (c.write i x).wf cap = true :=
  Cells.rising_write c x h (Nat.zero_le i) hi

theorem Cells.rising_filter {cap : Nat} (p : Nat × α → Bool) (c : Cells α) : ∀ {lo : Nat},
    c.rising cap lo = true → Cells.rising cap lo (c.filter p) = true := by
  induction c with
  | nil => intro lo _; rfl
  | cons kv c ih =>
    intro lo h
    obtain ⟨k, v⟩ := kv
    simp only [Cells.rising, Bool.and_eq_true, decide_eq_true_eq] at h
    have hc := ih h.2
    rw [List.filter_cons]
    split
    · simp only [Cells.rising, Bool.and_eq_true, decide_eq_true_eq]
      exact ⟨h.1, hc⟩
    · exact Cells.rising_mono hc (by omega)

/-- Putting a cell of the file keeps the canonical form. -/
theorem Cells.wf_put {cap : Nat} {c : Cells α} {i : Nat} (x : Option α) (h : c.wf cap = true)
    (hi : i < cap) : (c.put i x).wf cap = true := by
  cases x with
  | none => exact Cells.rising_filter _ c h
  | some x => exact Cells.wf_write x h hi

/-- Writing consecutive cells of the file keeps the canonical form. -/
theorem Cells.wf_putAll {cap : Nat} (xs : List (Option α)) : ∀ {c : Cells α} {lo : Nat},
    c.wf cap = true → xs.length = 0 ∨ lo + xs.length ≤ cap → (c.putAll lo xs).wf cap = true := by
  induction xs with
  | nil => intro c lo h _; simpa using h
  | cons x xs ih =>
    intro c lo h hc
    simp only [List.length_cons] at hc
    rw [Cells.putAll_cons]
    exact ih (Cells.wf_put x h (by omega)) (by omega)

@[simp] theorem Cells.wf_nil (cap : Nat) : Cells.wf cap ([] : Cells α) = true := rfl

theorem Cells.filled_iff {n : Nat} {c : Cells α} :
    c.filled n = true ↔ ∀ i, i < n → (c.read i).isSome = true := by
  simp [Cells.filled]

theorem Cells.filled_mono {m n : Nat} {c : Cells α} (h : c.filled n = true) (hm : m ≤ n) :
    c.filled m = true :=
  Cells.filled_iff.2 fun i hi => Cells.filled_iff.1 h i (by omega)

/-- Writing values never takes one away. -/
theorem Cells.filled_putAll {n : Nat} {c : Cells α} (lo : Nat) (xs : List α)
    (h : ∀ i, i < n → (lo ≤ i ∧ i < lo + xs.length) ∨ (c.read i).isSome = true) :
    (c.putAll lo (xs.map some)).filled n = true := by
  refine Cells.filled_iff.2 fun i hi => ?_
  rw [Cells.read_putAll]
  split
  · rename_i hr
    have : i - lo < xs.length := by simp at hr; omega
    simp [this]
  · rename_i hr
    rcases h i hi with hr' | hs
    · simp at hr
      omega
    · exact hs

@[simp] theorem readCells_length (c : Cells α) (lo n : Nat) : (readCells c lo n).length = n := by
  simp [readCells]

theorem readCells_getElem? (c : Cells α) (lo n k : Nat) :
    (readCells c lo n)[k]? = if k < n then some (c.read (lo + k)) else none := by
  simp only [readCells, List.getElem?_map]
  split
  · rename_i h
    simp [List.getElem?_range h]
  · rename_i h
    simp [List.getElem?_eq_none (l := List.range n) (by simpa using h)]

/-- Cells hold the values xs exactly when they are xs, each a value. -/
theorem valuesOf_eq_some_iff {cs : List (Option α)} {xs : List α} :
    valuesOf cs = some xs ↔ cs = xs.map some := by
  induction cs generalizing xs with
  | nil => cases xs <;> simp [valuesOf]
  | cons c cs ih =>
    cases c with
    | none => cases xs <;> simp [valuesOf]
    | some c => cases xs <;> simp [valuesOf, ih, and_comm]

@[simp] theorem valuesOf_map_some (xs : List α) : valuesOf (xs.map some) = some xs :=
  valuesOf_eq_some_iff.2 rfl

/-- A range read is of the values xs exactly when the cells' values are xs, in order. -/
theorem readCells_eq_map_some_iff {c : Cells α} {lo n : Nat} {xs : List α} :
    readCells c lo n = xs.map some ↔ xs.length = n ∧ ∀ k, k < n → c.read (lo + k) = xs[k]? := by
  constructor
  · intro h
    have hl : xs.length = n := by simpa using (congrArg List.length h).symm
    refine ⟨hl, fun k hk => ?_⟩
    have hg := congrArg (·[k]?) h
    simp only [readCells_getElem?, if_pos hk, List.getElem?_map] at hg
    have hx : xs[k]? = some xs[k] := List.getElem?_eq_getElem (by omega)
    rw [hx] at hg ⊢
    simpa using hg
  · rintro ⟨rfl, h⟩
    refine List.ext_getElem? fun k => ?_
    rw [readCells_getElem?, List.getElem?_map]
    split
    · rename_i hk
      rw [h k hk, List.getElem?_eq_getElem hk]
      rfl
    · rename_i hk
      rw [List.getElem?_eq_none (by omega)]
      rfl

/-- Where the cells of a range all hold values, a range read is of some values. -/
theorem readCells_of_filled {c : Cells α} {n : Nat} : ∀ {lo : Nat},
    (∀ k, k < n → (c.read (lo + k)).isSome = true) →
      ∃ xs : List α, readCells c lo n = xs.map some := by
  induction n with
  | zero => intro lo _; exact ⟨[], rfl⟩
  | succ n ih =>
    intro lo h
    obtain ⟨x, hx⟩ := Option.isSome_iff_exists.1 (h 0 (by omega))
    obtain ⟨xs, hxs⟩ := ih (lo := lo + 1) fun k hk => by
      have := h (k + 1) (by omega)
      rwa [show lo + (k + 1) = lo + 1 + k by omega] at this
    obtain ⟨hl, hv⟩ := readCells_eq_map_some_iff.1 hxs
    refine ⟨x :: xs, readCells_eq_map_some_iff.2 ⟨by simp [hl], fun k hk => ?_⟩⟩
    cases k with
    | zero => simpa using hx
    | succ k =>
      rw [List.getElem?_cons_succ, ← hv k (by omega)]
      congr 1
      omega

/-- What a range write does: the write, where all the cells exist; otherwise the fault. -/
theorem writeCells_ok_iff {f : File} {cap : Nat} {c d : Cells α} {lo : Nat}
    {xs : List (Option α)} :
    writeCells f cap c lo xs = .ok d ↔
      (xs.length = 0 ∨ lo + xs.length ≤ cap) ∧ d = c.putAll lo xs := by
  simp only [writeCells]
  split
  · rename_i h
    simp only [Except.ok.injEq]
    exact ⟨fun e => ⟨h, e.symm⟩, fun e => e.2.symm⟩
  · rename_i h
    exact ⟨fun e => (by cases e), fun e => absurd e.1 h⟩

end Sys2Proof.Machine
end

