-- ==== Sys2Proof/Laws/Datapath.lean ====
section
/-! SUPPORT. The datapath on cells: lengths, and that on cells that all hold values each operation is the
one on the values. -/

namespace Sys2Proof.Machine

@[simp] theorem packCells_length (w : Nat) (bytes : List (Option Byte)) :
    (packCells w bytes).length = w := by
  induction w generalizing bytes with
  | zero => rfl
  | succ w ih => simp [packCells, ih]

@[simp] theorem serialiseCells_length (words : List (Option Word)) :
    (serialiseCells words).length = 8 * words.length := by
  induction words with
  | nil => rfl
  | cons w words ih =>
    rw [serialiseCells, List.flatMap_cons, List.length_append, ← serialiseCells, ih]
    simp
    omega

@[simp] theorem foldElementwiseCells_length (h r : List (Option Byte)) :
    (foldElementwiseCells h r).length = min h.length r.length := by
  simp [foldElementwiseCells]

@[simp] theorem foldCrossCells_length (h r : List (Option Byte)) :
    (foldCrossCells h r).length = h.length := by
  simp [foldCrossCells]

theorem packGroupCells_map_some (bytes : List Byte) :
    packGroupCells (bytes.map some) = some (packGroup bytes) := by
  induction bytes with
  | nil => rfl
  | cons x bytes ih =>
    rw [List.map_cons, packGroupCells, ih, Option.map₂_some_some]
    rfl

theorem packCells_map_some (w : Nat) (bytes : List Byte) :
    packCells w (bytes.map some) = (packWords w bytes).map some := by
  induction w generalizing bytes with
  | zero => rfl
  | succ w ih =>
    simp [packCells, packWords, ← List.map_take, ← List.map_drop, packGroupCells_map_some, ih]

theorem serialiseCells_map_some (words : List Word) :
    serialiseCells (words.map some) = (serialise words).map some := by
  simp [serialiseCells, serialise, serialiseWord, List.flatMap_map, List.map_flatMap, Function.comp_def]

theorem diffuseCell_map_some (words : List Word) (x : Byte) :
    diffuseCell (words.map some) (some x) = some (diffuse words x) := by
  induction words generalizing x with
  | nil => rfl
  | cons w words ih =>
    rw [diffuseCell, List.map_cons, List.foldl_cons, Option.map₂_some_some, ← diffuseCell, ih]
    rfl

theorem foldElementwiseCells_map_some (h r : List Byte) :
    foldElementwiseCells (h.map some) (r.map some) = (foldElementwise h r).map some := by
  simp [foldElementwiseCells, foldElementwise, List.zipWith_map, List.map_zipWith]

theorem crossFrom_map_some (add : Byte → Byte → Byte) (i : Nat) (r : List Byte) :
    ∀ (j : Nat) (x : Byte), crossFrom (Option.map₂ add) i j (r.map some) (some x) =
      some (crossFrom add i j r x) := by
  induction r with
  | nil => intro j x; rfl
  | cons y r ih =>
    intro j x
    simp only [List.map_cons, crossFrom, Option.map₂_some_some, ← ih]
    split <;> rfl

theorem foldCrossCells_map_some (h r : List Byte) :
    foldCrossCells (h.map some) (r.map some) = (foldCross h r).map some := by
  refine List.ext_getElem (by simp [foldCross]) fun i _ _ => ?_
  simp [foldCrossCells, foldCross, crossFrom_map_some]

end Sys2Proof.Machine
end

