-- ==== Sys2Proof/Laws/State.lean ====
section
/-! SUPPORT. Every field of State after every named update of it. -/

namespace Sys2Proof.Machine

variable (s : State)

@[simp] theorem State.respond_inst (r : Reply) : (s.respond r).inst = s.inst := rfl
@[simp] theorem State.respond_h (r : Reply) : (s.respond r).h = s.h := rfl
@[simp] theorem State.respond_b (r : Reply) : (s.respond r).b = s.b := rfl
@[simp] theorem State.respond_a (r : Reply) : (s.respond r).a = s.a := rfl
@[simp] theorem State.respond_p (r : Reply) : (s.respond r).p = s.p := rfl
@[simp] theorem State.respond_n (r : Reply) : (s.respond r).n = s.n := rfl
@[simp] theorem State.respond_mode (r : Reply) : (s.respond r).mode = s.mode := rfl
@[simp] theorem State.respond_valid (r : Reply) : (s.respond r).valid = s.valid := rfl
@[simp] theorem State.respond_err (r : Reply) : (s.respond r).err = s.err := rfl
@[simp] theorem State.respond_errInfo (r : Reply) : (s.respond r).errInfo = s.errInfo := rfl
@[simp] theorem State.respond_wptr (r : Reply) : (s.respond r).wptr = s.wptr := rfl
@[simp] theorem State.respond_seq (r : Reply) : (s.respond r).seq = s.seq := rfl
@[simp] theorem State.respond_rnd (r : Reply) : (s.respond r).rnd = s.rnd := rfl
@[simp] theorem State.respond_pending (r : Reply) : (s.respond r).pending = s.pending.tail := rfl
@[simp] theorem State.respond_replies (r : Reply) : (s.respond r).replies = r :: s.replies := rfl
@[simp] theorem State.respond_resetLine (r : Reply) : (s.respond r).resetLine = s.resetLine := rfl

@[simp] theorem State.takeException_inst (e : ErrCode) (info : Reg) : (s.takeException e info).inst = s.inst := rfl
@[simp] theorem State.takeException_h (e : ErrCode) (info : Reg) : (s.takeException e info).h = s.h := rfl
@[simp] theorem State.takeException_b (e : ErrCode) (info : Reg) : (s.takeException e info).b = s.b := rfl
@[simp] theorem State.takeException_a (e : ErrCode) (info : Reg) : (s.takeException e info).a = s.a := rfl
@[simp] theorem State.takeException_p (e : ErrCode) (info : Reg) : (s.takeException e info).p = s.p := rfl
@[simp] theorem State.takeException_n (e : ErrCode) (info : Reg) : (s.takeException e info).n = s.n := rfl
@[simp] theorem State.takeException_mode (e : ErrCode) (info : Reg) : (s.takeException e info).mode = s.mode := rfl
@[simp] theorem State.takeException_valid (e : ErrCode) (info : Reg) : (s.takeException e info).valid = false := rfl
@[simp] theorem State.takeException_err (e : ErrCode) (info : Reg) : (s.takeException e info).err = (if s.err = .noError then e else s.err) := rfl
@[simp] theorem State.takeException_errInfo (e : ErrCode) (info : Reg) : (s.takeException e info).errInfo = (if s.err = .noError then info else s.errInfo) := rfl
@[simp] theorem State.takeException_wptr (e : ErrCode) (info : Reg) : (s.takeException e info).wptr = s.wptr := rfl
@[simp] theorem State.takeException_seq (e : ErrCode) (info : Reg) : (s.takeException e info).seq = s.seq := rfl
@[simp] theorem State.takeException_rnd (e : ErrCode) (info : Reg) : (s.takeException e info).rnd = s.rnd := rfl
@[simp] theorem State.takeException_pending (e : ErrCode) (info : Reg) : (s.takeException e info).pending = s.pending := rfl
@[simp] theorem State.takeException_replies (e : ErrCode) (info : Reg) : (s.takeException e info).replies = s.replies := rfl
@[simp] theorem State.takeException_resetLine (e : ErrCode) (info : Reg) : (s.takeException e info).resetLine = s.resetLine := rfl

@[simp] theorem State.raise_inst (e : ErrCode) (info : Reg) : (s.raise e info).inst = s.inst := rfl
@[simp] theorem State.raise_h (e : ErrCode) (info : Reg) : (s.raise e info).h = s.h := rfl
@[simp] theorem State.raise_b (e : ErrCode) (info : Reg) : (s.raise e info).b = s.b := rfl
@[simp] theorem State.raise_a (e : ErrCode) (info : Reg) : (s.raise e info).a = s.a := rfl
@[simp] theorem State.raise_p (e : ErrCode) (info : Reg) : (s.raise e info).p = s.p := rfl
@[simp] theorem State.raise_n (e : ErrCode) (info : Reg) : (s.raise e info).n = s.n := rfl
@[simp] theorem State.raise_mode (e : ErrCode) (info : Reg) : (s.raise e info).mode = s.mode := rfl
@[simp] theorem State.raise_valid (e : ErrCode) (info : Reg) : (s.raise e info).valid = false := rfl
@[simp] theorem State.raise_err (e : ErrCode) (info : Reg) : (s.raise e info).err = (if s.err = .noError then e else s.err) := rfl
@[simp] theorem State.raise_errInfo (e : ErrCode) (info : Reg) : (s.raise e info).errInfo = (if s.err = .noError then info else s.errInfo) := rfl
@[simp] theorem State.raise_wptr (e : ErrCode) (info : Reg) : (s.raise e info).wptr = s.wptr := rfl
@[simp] theorem State.raise_seq (e : ErrCode) (info : Reg) : (s.raise e info).seq = s.seq := rfl
@[simp] theorem State.raise_rnd (e : ErrCode) (info : Reg) : (s.raise e info).rnd = s.rnd := rfl
@[simp] theorem State.raise_pending (e : ErrCode) (info : Reg) : (s.raise e info).pending = s.pending.tail := rfl
@[simp] theorem State.raise_replies (e : ErrCode) (info : Reg) : (s.raise e info).replies = .ok :: s.replies := rfl
@[simp] theorem State.raise_resetLine (e : ErrCode) (info : Reg) : (s.raise e info).resetLine = s.resetLine := rfl

@[simp] theorem State.clearException_inst : (s.clearException).inst = s.inst := rfl
@[simp] theorem State.clearException_h : (s.clearException).h = s.h := rfl
@[simp] theorem State.clearException_b : (s.clearException).b = s.b := rfl
@[simp] theorem State.clearException_a : (s.clearException).a = s.a := rfl
@[simp] theorem State.clearException_p : (s.clearException).p = s.p := rfl
@[simp] theorem State.clearException_n : (s.clearException).n = s.n := rfl
@[simp] theorem State.clearException_mode : (s.clearException).mode = s.mode := rfl
@[simp] theorem State.clearException_valid : (s.clearException).valid = true := rfl
@[simp] theorem State.clearException_err : (s.clearException).err = .noError := rfl
@[simp] theorem State.clearException_errInfo : (s.clearException).errInfo = 0 := rfl
@[simp] theorem State.clearException_wptr : (s.clearException).wptr = s.wptr := rfl
@[simp] theorem State.clearException_seq : (s.clearException).seq = s.seq := rfl
@[simp] theorem State.clearException_rnd : (s.clearException).rnd = s.rnd := rfl
@[simp] theorem State.clearException_pending : (s.clearException).pending = s.pending := rfl
@[simp] theorem State.clearException_replies : (s.clearException).replies = s.replies := rfl
@[simp] theorem State.clearException_resetLine : (s.clearException).resetLine = s.resetLine := rfl

@[simp] theorem State.endAbsorb_inst : (s.endAbsorb).inst = s.inst := rfl
@[simp] theorem State.endAbsorb_h : (s.endAbsorb).h = s.h := rfl
@[simp] theorem State.endAbsorb_b : (s.endAbsorb).b = s.b := rfl
@[simp] theorem State.endAbsorb_a : (s.endAbsorb).a = s.a := rfl
@[simp] theorem State.endAbsorb_p : (s.endAbsorb).p = s.p := rfl
@[simp] theorem State.endAbsorb_n : (s.endAbsorb).n = s.n := rfl
@[simp] theorem State.endAbsorb_mode : (s.endAbsorb).mode = s.mode := rfl
@[simp] theorem State.endAbsorb_valid : (s.endAbsorb).valid = s.valid := rfl
@[simp] theorem State.endAbsorb_err : (s.endAbsorb).err = s.err := rfl
@[simp] theorem State.endAbsorb_errInfo : (s.endAbsorb).errInfo = s.errInfo := rfl
@[simp] theorem State.endAbsorb_wptr : (s.endAbsorb).wptr = 0 := rfl
@[simp] theorem State.endAbsorb_seq : (s.endAbsorb).seq = .idle := rfl
@[simp] theorem State.endAbsorb_rnd : (s.endAbsorb).rnd = s.rnd := rfl
@[simp] theorem State.endAbsorb_pending : (s.endAbsorb).pending = s.pending.tail := rfl
@[simp] theorem State.endAbsorb_replies : (s.endAbsorb).replies = .ok :: s.replies := rfl
@[simp] theorem State.endAbsorb_resetLine : (s.endAbsorb).resetLine = s.resetLine := rfl

@[simp] theorem State.takeReset_inst : (s.takeReset).inst = s.inst := rfl
@[simp] theorem State.takeReset_h : (s.takeReset).h = [] := rfl
@[simp] theorem State.takeReset_b : (s.takeReset).b = [] := rfl
@[simp] theorem State.takeReset_a : (s.takeReset).a = [] := rfl
@[simp] theorem State.takeReset_p : (s.takeReset).p = [] := rfl
@[simp] theorem State.takeReset_n : (s.takeReset).n = 0 := rfl
@[simp] theorem State.takeReset_mode : (s.takeReset).mode = .elementwise := rfl
@[simp] theorem State.takeReset_valid : (s.takeReset).valid = false := rfl
@[simp] theorem State.takeReset_err : (s.takeReset).err = .noError := rfl
@[simp] theorem State.takeReset_errInfo : (s.takeReset).errInfo = 0 := rfl
@[simp] theorem State.takeReset_wptr : (s.takeReset).wptr = 0 := rfl
@[simp] theorem State.takeReset_seq : (s.takeReset).seq = .idle := rfl
@[simp] theorem State.takeReset_rnd : (s.takeReset).rnd = 0 := rfl
@[simp] theorem State.takeReset_pending : (s.takeReset).pending = (if s.seq = .idle then s.pending else s.pending.tail) := rfl
@[simp] theorem State.takeReset_replies : (s.takeReset).replies = s.replies := rfl
@[simp] theorem State.takeReset_resetLine : (s.takeReset).resetLine = s.resetLine := rfl

end Sys2Proof.Machine
end

