-- ==== Sys2Proof/Laws/Ops.lean ====
section
/-! SUPPORT. Once for each shared operation: everything it can do. -/

namespace Sys2Proof.Machine

/-- An operation in `finish` answers a next state exactly when it answered that state. -/
@[simp] theorem finish_next_iff {r : Except Fault State} {t : State} :
    finish r = .next t ↔ r = .ok t := by
  cases r <;> simp [finish]

@[simp] theorem finish_ok (t : State) : finish (.ok t) = .next t := rfl

/-- A sequence of two operations answers a value exactly when both do. -/
theorem bind_ok_iff {β γ : Type} {x : Except Fault β} {f : β → Except Fault γ} {c : γ} :
    x >>= f = .ok c ↔ ∃ b, x = .ok b ∧ f b = .ok c := by
  cases x <;> simp [bind, Except.bind]

@[simp] theorem pure_ok_iff {β : Type} {x y : β} :
    (pure x : Except Fault β) = .ok y ↔ x = y := by
  simp [pure, Except.pure]

theorem State.readRom_ok_iff {s : State} {n : Nat} {xs : List (Option Byte)} :
    s.readRom n = .ok xs ↔ n ≤ s.inst.lp ∧ xs = (s.inst.p.take n).map some := by
  simp only [State.readRom]
  split
  · rename_i h
    simp only [Except.ok.injEq]
    exact ⟨fun e => ⟨h, e.symm⟩, fun e => e.2.symm⟩
  · rename_i h
    exact ⟨fun e => (by cases e), fun e => absurd e.1 h⟩

@[simp] theorem State.readH_length (s : State) (lo n : Nat) : (s.readH lo n).length = n :=
  readCells_length ..

@[simp] theorem State.readB_length (s : State) (lo n : Nat) : (s.readB lo n).length = n :=
  readCells_length ..

@[simp] theorem State.readA_length (s : State) (lo n : Nat) : (s.readA lo n).length = n :=
  readCells_length ..

@[simp] theorem State.readP_length (s : State) (lo n : Nat) : (s.readP lo n).length = n :=
  readCells_length ..

theorem State.writeH_ok_iff {s t : State} {lo : Nat} {xs : List (Option Byte)} :
    s.writeH lo xs = .ok t ↔
      (xs.length = 0 ∨ lo + xs.length ≤ s.inst.nmax.toNat) ∧ t = { s with h := s.h.putAll lo xs } := by
  simp only [State.writeH, writeCells]
  by_cases h : xs.length = 0 ∨ lo + xs.length ≤ s.inst.nmax.toNat
  · simp only [if_pos h, Except.ok.injEq]
    exact ⟨fun e => ⟨h, e.symm⟩, fun e => e.2.symm⟩
  · simp only [if_neg h]
    exact ⟨fun e => (by cases e), fun e => absurd e.1 h⟩

theorem State.writeB_ok_iff {s t : State} {lo : Nat} {xs : List (Option Byte)} :
    s.writeB lo xs = .ok t ↔
      (xs.length = 0 ∨ lo + xs.length ≤ s.inst.nmax.toNat) ∧ t = { s with b := s.b.putAll lo xs } := by
  simp only [State.writeB, writeCells]
  by_cases h : xs.length = 0 ∨ lo + xs.length ≤ s.inst.nmax.toNat
  · simp only [if_pos h, Except.ok.injEq]
    exact ⟨fun e => ⟨h, e.symm⟩, fun e => e.2.symm⟩
  · simp only [if_neg h]
    exact ⟨fun e => (by cases e), fun e => absurd e.1 h⟩

theorem State.writeA_ok_iff {s t : State} {lo : Nat} {xs : List (Option Word)} :
    s.writeA lo xs = .ok t ↔
      (xs.length = 0 ∨ lo + xs.length ≤ s.inst.nmax.toNat / 8) ∧
        t = { s with a := s.a.putAll lo xs } := by
  simp only [State.writeA, writeCells]
  by_cases h : xs.length = 0 ∨ lo + xs.length ≤ s.inst.nmax.toNat / 8
  · simp only [if_pos h, Except.ok.injEq]
    exact ⟨fun e => ⟨h, e.symm⟩, fun e => e.2.symm⟩
  · simp only [if_neg h]
    exact ⟨fun e => (by cases e), fun e => absurd e.1 h⟩

theorem State.writeP_ok_iff {s t : State} {lo : Nat} {xs : List (Option Word)} :
    s.writeP lo xs = .ok t ↔
      (xs.length = 0 ∨ lo + xs.length ≤ s.inst.nmax.toNat / 8) ∧
        t = { s with p := s.p.putAll lo xs } := by
  simp only [State.writeP, writeCells]
  by_cases h : xs.length = 0 ∨ lo + xs.length ≤ s.inst.nmax.toNat / 8
  · simp only [if_pos h, Except.ok.injEq]
    exact ⟨fun e => ⟨h, e.symm⟩, fun e => e.2.symm⟩
  · simp only [if_neg h]
    exact ⟨fun e => (by cases e), fun e => absurd e.1 h⟩

/-- The state after reset has its memory in canonical form. -/
theorem memory_wf_resetFor (i : Config.Instance) : Memory.wf (State.resetFor i) = true := rfl

/-- Every range write to a register file keeps the memory's canonical form. -/
theorem memory_wf_writeH {s t : State} {lo : Nat} {xs : List (Option Byte)} (h : Memory.wf s = true)
    (e : s.writeH lo xs = .ok t) : Memory.wf t = true := by
  obtain ⟨hc, rfl⟩ := State.writeH_ok_iff.1 e
  simp only [Memory.wf, Bool.and_eq_true] at h ⊢
  exact ⟨⟨⟨Cells.wf_putAll xs h.1.1.1 hc, h.1.1.2⟩, h.1.2⟩, h.2⟩

theorem memory_wf_writeB {s t : State} {lo : Nat} {xs : List (Option Byte)} (h : Memory.wf s = true)
    (e : s.writeB lo xs = .ok t) : Memory.wf t = true := by
  obtain ⟨hc, rfl⟩ := State.writeB_ok_iff.1 e
  simp only [Memory.wf, Bool.and_eq_true] at h ⊢
  exact ⟨⟨⟨h.1.1.1, Cells.wf_putAll xs h.1.1.2 hc⟩, h.1.2⟩, h.2⟩

theorem memory_wf_writeA {s t : State} {lo : Nat} {xs : List (Option Word)} (h : Memory.wf s = true)
    (e : s.writeA lo xs = .ok t) : Memory.wf t = true := by
  obtain ⟨hc, rfl⟩ := State.writeA_ok_iff.1 e
  simp only [Memory.wf, Bool.and_eq_true] at h ⊢
  exact ⟨⟨h.1.1, Cells.wf_putAll xs h.1.2 hc⟩, h.2⟩

theorem memory_wf_writeP {s t : State} {lo : Nat} {xs : List (Option Word)} (h : Memory.wf s = true)
    (e : s.writeP lo xs = .ok t) : Memory.wf t = true := by
  obtain ⟨hc, rfl⟩ := State.writeP_ok_iff.1 e
  simp only [Memory.wf, Bool.and_eq_true] at h ⊢
  exact ⟨h.1, Cells.wf_putAll xs h.2 hc⟩

end Sys2Proof.Machine
end

