-- ==== Sys2Proof/Laws/Exec.lean ====
section
/-! SUPPORT. One inversion lemma per meaning that can stop: exactly when it answers a next state, and
which. -/

namespace Sys2Proof.Machine

variable {s t : State}

theorem execCreate_legal_next_iff {n : BitVec 16} {mode : FoldMode}
    (hl : legalSize s.inst n = true) :
    execCreate n mode s = .next t ↔
      n.toNat ≤ s.inst.lp ∧
      ((s.inst.p.take n.toNat).length = 0 ∨
        0 + (s.inst.p.take n.toNat).length ≤ s.inst.nmax.toNat) ∧
      t = ({ s with h := s.h.putAll 0 ((s.inst.p.take n.toNat).map some), n := n, mode := mode,
                    wptr := 0 }.clearException).respond .ok := by
  simp only [execCreate, hl, if_true, finish_next_iff, bind_ok_iff, State.readRom_ok_iff,
    State.writeH_ok_iff, pure_ok_iff]
  constructor
  · rintro ⟨_, ⟨h1, rfl⟩, _, ⟨h2, rfl⟩, rfl⟩
    exact ⟨h1, by simpa using h2, rfl⟩
  · rintro ⟨h1, h2, rfl⟩
    exact ⟨_, ⟨h1, rfl⟩, _, ⟨by simpa using h2, rfl⟩, rfl⟩

theorem execCreate_illegal {n : BitVec 16} {mode : FoldMode}
    (hl : legalSize s.inst n = false) :
    execCreate n mode s = .next (s.raise .invalidConfig (createWord n mode)) := by
  simp [execCreate, hl]

/-- Delivering a word that is a command is that command (R86). -/
theorem execWrcmd_create {w : Reg} {n : BitVec 16} {mode : FoldMode}
    (h : decodeCommand w = .ok (.create n mode)) : execWrcmd w s = execCreate n mode s := by
  simp [execWrcmd, h]

theorem execWrcmd_absorb {w : Reg} (h : decodeCommand w = .ok .absorb) :
    execWrcmd w s = execAbsorb s := by
  simp [execWrcmd, h]

theorem execWrcmd_illegal {w : Reg} {r : Reject} (h : decodeCommand w = .error r) :
    execWrcmd w s = .next (s.raise .illegalCommand w) := by
  simp [execWrcmd, h]

/-- Format C has the two commands only (R80). -/
theorem decodeCommand_cases (w : Reg) :
    (∃ n mode, decodeCommand w = .ok (.create n mode)) ∨ decodeCommand w = .ok .absorb ∨
      decodeCommand w = .error (.illegalCommand w) := by
  simp only [decodeCommand]
  split
  · exact .inl ⟨_, _, rfl⟩
  · split
    · exact .inr (.inl rfl)
    · exact .inr (.inr rfl)

theorem execPush_accepted_next_iff {b : Byte} (hv : s.valid = true) (hn : s.wptr ≠ s.n) :
    execPush b s = .next t ↔
      s.wptr.toNat + 1 ≤ s.inst.nmax.toNat ∧
      t = { s with b := s.b.putAll s.wptr.toNat [some b], wptr := s.wptr + 1 }.respond .ok := by
  have hv' : ¬ s.valid = false := by simp [hv]
  simp only [execPush, if_neg hv', if_neg hn, finish_next_iff, bind_ok_iff, State.writeB_ok_iff,
    pure_ok_iff, List.length_singleton]
  constructor
  · rintro ⟨_, ⟨h2, rfl⟩, rfl⟩
    exact ⟨by omega, rfl⟩
  · rintro ⟨h2, rfl⟩
    exact ⟨_, ⟨.inr h2, rfl⟩, rfl⟩

theorem execPad_next_iff :
    execPad s = .next t ↔
      s.n.toNat - s.wptr.toNat ≤ s.inst.lp ∧
      ((s.inst.p.take (s.n.toNat - s.wptr.toNat)).length = 0 ∨
        s.wptr.toNat + (s.inst.p.take (s.n.toNat - s.wptr.toNat)).length ≤ s.inst.nmax.toNat) ∧
      t = { s with
        b := s.b.putAll s.wptr.toNat ((s.inst.p.take (s.n.toNat - s.wptr.toNat)).map some),
        seq := .pack } := by
  simp only [execPad, finish_next_iff, bind_ok_iff, State.readRom_ok_iff, State.writeB_ok_iff,
    pure_ok_iff]
  constructor
  · rintro ⟨_, ⟨h1, rfl⟩, _, ⟨h2, rfl⟩, rfl⟩
    exact ⟨h1, by simpa using h2, rfl⟩
  · rintro ⟨h1, h2, rfl⟩
    exact ⟨_, ⟨h1, rfl⟩, _, ⟨by simpa using h2, rfl⟩, rfl⟩

theorem execPack_next_iff :
    execPack s = .next t ↔
      wordCount s ≤ s.inst.nmax.toNat / 8 ∧
      t = { s with a := s.a.putAll 0 (packCells (wordCount s) (s.readB 0 (8 * wordCount s))),
                   rnd := roundStart, seq := .mix } := by
  simp only [execPack, finish_next_iff, bind_ok_iff, State.writeA_ok_iff, pure_ok_iff,
    packCells_length]
  constructor
  · rintro ⟨_, ⟨h, rfl⟩, rfl⟩
    exact ⟨by omega, rfl⟩
  · rintro ⟨h, rfl⟩
    exact ⟨_, ⟨.inr (by omega), rfl⟩, rfl⟩

theorem execMix_next_iff :
    execMix s = .next t ↔
      wordCount s ≤ s.inst.nmax.toNat / 8 ∧
      t = { s with
        a := s.a.putAll 0 ((s.readA 0 (wordCount s)).map
          (Option.map fun w => mixword s.inst.num w s.rnd)),
        p := s.p.putAll 0 ((s.readA 0 (wordCount s)).map
          (Option.map fun w => mixword s.inst.num w s.rnd)),
        seq := .diffuse } := by
  simp only [execMix, finish_next_iff, bind_ok_iff, State.writeA_ok_iff, State.writeP_ok_iff,
    pure_ok_iff, List.length_map, State.readA_length]
  constructor
  · rintro ⟨_, ⟨h, rfl⟩, _, ⟨-, rfl⟩, rfl⟩
    exact ⟨by omega, rfl⟩
  · rintro ⟨h, rfl⟩
    have hc : 0 + wordCount s ≤ s.inst.nmax.toNat / 8 := by omega
    exact ⟨_, ⟨.inr hc, rfl⟩, _, ⟨.inr hc, rfl⟩, rfl⟩

theorem execDiffuse_next_iff :
    execDiffuse s = .next t ↔
      s.n.toNat ≤ s.inst.nmax.toNat ∧
      t = { s with
        h := s.h.putAll 0 ((s.readH 0 s.n.toNat).map (diffuseCell (s.readA 0 (wordCount s)))),
        rnd := s.rnd + roundStep,
        seq := if s.rnd + roundStep ≤ roundBound then .mix else .fold } := by
  simp only [execDiffuse, finish_next_iff, bind_ok_iff, State.writeH_ok_iff, pure_ok_iff,
    List.length_map, State.readH_length]
  constructor
  · rintro ⟨_, ⟨h, rfl⟩, rfl⟩
    exact ⟨by omega, rfl⟩
  · rintro ⟨h, rfl⟩
    exact ⟨_, ⟨.inr (by omega), rfl⟩, rfl⟩

theorem execFoldE_next_iff :
    execFoldE s = .next t ↔
      8 * wordCount s ≤ s.inst.nmax.toNat ∧
      t = { s with
        h := s.h.putAll 0 (foldElementwiseCells (s.readH 0 s.n.toNat)
          (serialiseCells (s.readP 0 (wordCount s)))) }.endAbsorb := by
  have hw : 8 * wordCount s ≤ s.n.toNat := by
    simp only [wordCount]
    omega
  simp only [execFoldE, finish_next_iff, bind_ok_iff, State.writeH_ok_iff, pure_ok_iff,
    foldElementwiseCells_length, serialiseCells_length, State.readH_length, State.readP_length]
  constructor
  · rintro ⟨_, ⟨h, rfl⟩, rfl⟩
    exact ⟨by omega, rfl⟩
  · rintro ⟨h, rfl⟩
    exact ⟨_, ⟨.inr (by omega), rfl⟩, rfl⟩

theorem execFoldX_next_iff :
    execFoldX s = .next t ↔
      s.n.toNat ≤ s.inst.nmax.toNat ∧
      t = { s with
        h := s.h.putAll 0 (foldCrossCells (s.readH 0 s.n.toNat)
          (serialiseCells (s.readP 0 (wordCount s)))) }.endAbsorb := by
  simp only [execFoldX, finish_next_iff, bind_ok_iff, State.writeH_ok_iff, pure_ok_iff,
    foldCrossCells_length, State.readH_length]
  constructor
  · rintro ⟨_, ⟨h, rfl⟩, rfl⟩
    exact ⟨by omega, rfl⟩
  · rintro ⟨h, rfl⟩
    exact ⟨_, ⟨.inr (by omega), rfl⟩, rfl⟩

/-- A step is the reset event, or runs the operation fetched, or answers BusError. -/
theorem step_cases (s : State) :
    (∃ rest, s.resetLine = true :: rest ∧
      step s = .next ({ s with resetLine := rest }.takeReset)) ∨
    (s.resetLine.head? ≠ some true ∧
      step s = stepRun { s with resetLine := s.resetLine.tail }) := by
  cases h : s.resetLine with
  | nil => right; simp [step, h]
  | cons x rest =>
    cases x with
    | true => left; exact ⟨rest, rfl, by simp [step, h]⟩
    | false => right; simp [step, h]

/-- The sequencer's selector always names a micro-operation (R206). -/
theorem decode_selectorWord (s : State) : ∃ i, decode (.selector (selectorWord s)) = .ok i := by
  simp only [selectorWord]
  cases s.mode <;> cases s.seq <;> exact ⟨_, rfl⟩

end Sys2Proof.Machine
end

