-- ==== Sys2Proof/Laws/Numerics.lean ====
section
/-! SUPPORT. Bounds of the rounding, and P1, P2 of R131 for the reference instance (R132). -/

namespace Sys2Proof.Machine

theorem fScale_pos : 0 < fScale := Nat.two_pow_pos _

/-- Rounding never leaves the binade above: with the exact value below 2^(j+1) units the pattern is at
most that of 2^(j+1) units. -/
theorem roundMag_le {num den q : Nat}
    (h : num * fScale < den * 2 ^ (q + 53)) : roundMag num den ≤ (q + 2) * 2 ^ 52 := by
  have ht : num * fScale / den < 2 ^ (q + 53) := Nat.div_lt_of_lt_mul h
  have hq : Nat.log2 (num * fScale / den) - 52 ≤ q := by
    by_cases h0 : num * fScale / den = 0
    · simp [h0]
    · have := (Nat.log2_lt h0).2 ht
      omega
  simp only [roundMag]
  generalize hq' : Nat.log2 (num * fScale / den) - 52 = q' at *
  have hk : num * fScale / (den * 2 ^ q') < 2 ^ 53 := by
    rw [← Nat.div_div_eq_div_mul]
    refine Nat.div_lt_of_lt_mul ?_
    rw [← Nat.pow_add]
    by_cases h0 : num * fScale / den = 0
    · rw [h0]
      positivity
    · have := (Nat.log2_lt (k := q' + 53) h0).1 (by omega)
      exact this
  refine le_trans (Nat.min_le_left _ _) ?_
  have h1 : ∀ b : Bool, (if b = true then num * fScale / (den * 2 ^ q') + 1
      else num * fScale / (den * 2 ^ q')) ≤ 2 ^ 53 := by
    intro b
    cases b <;> simp <;> omega
  have h2 : q' * 2 ^ 52 ≤ q * 2 ^ 52 := Nat.mul_le_mul_right _ hq
  refine le_trans (Nat.add_le_add h2 (h1 _)) ?_
  ring_nf
  omega

/-- A value of 1 rounds to 1.0. -/
theorem roundMag_self {den : Nat} (hd : 0 < den) : roundMag den den = 1023 * 2 ^ 52 := by
  have h1 : den * fScale / den = 2 ^ scaleBits := by
    rw [Nat.mul_div_cancel_left _ hd, fScale]
  have h2 : Nat.log2 (2 ^ scaleBits) = scaleBits := Nat.log2_two_pow
  have h3 : den * fScale = den * 2 ^ 1022 * 2 ^ 52 := by
    rw [Nat.mul_assoc, ← Nat.pow_add, fScale, show scaleBits = 1022 + 52 from rfl]
  have hp : 0 < den * 2 ^ 1022 := Nat.mul_pos hd (Nat.two_pow_pos _)
  simp only [roundMag, h1, h2]
  rw [show scaleBits - 52 = 1022 from rfl, h3, Nat.mul_div_cancel_left _ hp, Nat.mul_mod_right]
  simp [infPattern, Nat.ne_of_gt hd]

/-- A value of at most 1 rounds to at most 1.0. -/
theorem roundMag_le_one {num den : Nat} (hd : 0 < den) (h : num ≤ den) :
    roundMag num den ≤ 1023 * 2 ^ 52 := by
  rcases Nat.lt_or_ge num den with hlt | hge
  · refine roundMag_le (q := 1021) ?_
    rw [← show scaleBits = 1021 + 53 from rfl]
    exact Nat.mul_lt_mul_of_pos_right hlt fScale_pos
  · have : num = den := by omega
    subst this
    exact le_of_eq (roundMag_self hd)

theorem fabs_withSign (neg : Bool) {m : Nat} (h : m < 2 ^ 63) :
    (fabs (withSign neg m)).toNat = m := by
  have hm : (0x7FFFFFFFFFFFFFFF : BitVec 64).toNat = 2 ^ 63 - 1 := by decide
  simp only [fabs, BitVec.toNat_and, hm, Nat.and_two_pow_sub_one_eq_mod, withSign,
    BitVec.toNat_ofNat]
  cases neg <;> simp <;> omega

theorem fAtMostOne_roundFixed (neg : Bool) (v : Nat) : fAtMostOne (roundFixed neg v) := by
  have h := roundMag_le_one (num := min v (2 ^ trigBits)) (Nat.two_pow_pos trigBits)
    (Nat.min_le_right _ _)
  have h1 : (fOne : BitVec 64).toNat = 1023 * 2 ^ 52 := by decide
  rw [fAtMostOne, roundFixed, roundNearest, fabs_withSign neg (by omega), h1]
  exact h

/-- P1 holds of the reference instance (R132). -/
theorem reference_P1 : Config.NumUnit.P1 .reference := by decide +kernel

theorem fAtMostOne_tiny {u : F64} (h : trigTiny u = true) : fAtMostOne u := by
  have h1 : (fOne : BitVec 64).toNat = 1023 * 2 ^ 52 := by decide
  have hm : (0x7FFFFFFFFFFFFFFF : BitVec 64).toNat = 2 ^ 63 - 1 := by decide
  simp only [trigTiny, fExp, BitVec.extractLsb'_toNat, decide_eq_true_eq, Nat.shiftRight_eq_div_pow]
    at h
  rw [fAtMostOne, h1]
  simp only [fabs, BitVec.toNat_and, hm, Nat.and_two_pow_sub_one_eq_mod]
  have := u.isLt
  omega

/-- P2 holds of the reference instance (R132). -/
theorem reference_P2 : Config.NumUnit.P2 .reference := by
  intro u hu
  have h1 : fAtMostOne fOne := by decide
  have h0 : fAtMostOne 0 := by decide
  constructor
  · simp only [cosOf, referenceCos, hu, Bool.not_true]
    cases ht : trigTiny u
    · simp only [Bool.false_eq_true, if_false]
      split <;> exact fAtMostOne_roundFixed _ _
    · simpa using h1
  · simp only [sinOf, referenceSin, hu, Bool.not_true]
    by_cases hz : fUnits u = 0
    · simpa [hz] using h0
    · cases ht : trigTiny u
      · simp only [hz, Bool.false_eq_true, if_false]
        split <;> exact fAtMostOne_roundFixed _ _
      · simpa [hz] using fAtMostOne_tiny ht

end Sys2Proof.Machine
end

