-- ==== Sys2Proof/Laws/PerInstr.lean ====
section
/-! SUPPORT. Per instruction: its encoding lies in its row of spec/opcode_table.json. -/

namespace Sys2Proof.Laws.TableRow

/-- Match and mask of an instruction's row, as spec/opcode_table.json prints them. -/
def row : Instr → Nat × Nat
  | .create _ _ => (0x01000000, 0xFFFE0000)
  | .absorb => (0x02000000, 0xFFFFFFFF)
  | .wrcmd _ => (0xA0000, 0xFFFFF)
  | .push _ => (0x80020, 0xFFFFF)
  | .rdh _ => (0x01000, 0xFF000)
  | .rdstatus => (0x20004, 0xFFFFF)
  | .rdcfg => (0x20008, 0xFFFFF)
  | .rdcap => (0x2000C, 0xFFFFF)
  | .rdfill => (0x20010, 0xFFFFF)
  | .rderrinfo => (0x20014, 0xFFFFF)
  | .idle => (0x0, 0x7)
  | .pad => (0x1, 0x7)
  | .pack => (0x2, 0x7)
  | .mix => (0x3, 0x7)
  | .diffuse => (0x4, 0x7)
  | .foldE => (0x5, 0xF)
  | .foldX => (0xD, 0xF)

/-- Do the words lie in a row with the given match and mask? -/
def inRow (e : Encoded) (r : Nat × Nat) : Prop :=
  match e with
  | .command w => w &&& BitVec.ofNat 32 r.2 = BitVec.ofNat 32 r.1
  | .transaction th _ => th &&& BitVec.ofNat 20 r.2 = BitVec.ofNat 20 r.1
  | .selector us => us &&& BitVec.ofNat 4 r.2 = BitVec.ofNat 4 r.1

/-- The encoding of an instruction lies in its own row of the opcode table. -/
def Statement (i : Instr) : Prop := inRow (encode i) (row i)

theorem create (n : BitVec 16) (mode : FoldMode) : Statement (.create n mode) := by
  simp only [Statement, inRow, encode, row, createWord]
  apply BitVec.eq_of_getLsbD_eq
  intro i hi
  simp only [BitVec.getLsbD_and, BitVec.getLsbD_append]
  cases mode <;> interval_cases i <;> simp [foldModeBit]

theorem absorb : Statement .absorb := rfl

theorem wrcmd (word : Reg) : Statement (.wrcmd word) := by
  simp only [Statement, inRow, encode, row]
  decide

theorem push (b : Byte) : Statement (.push b) := by
  simp only [Statement, inRow, encode, row]
  decide

theorem rdh (i : BitVec 12) : Statement (.rdh i) := by
  simp only [Statement, inRow, encode, row]
  apply BitVec.eq_of_getLsbD_eq
  intro k hk
  simp only [BitVec.getLsbD_and, BitVec.getLsbD_append]
  interval_cases k <;> simp

theorem rdstatus : Statement .rdstatus := rfl
theorem rdcfg : Statement .rdcfg := rfl
theorem rdcap : Statement .rdcap := rfl
theorem rdfill : Statement .rdfill := rfl
theorem rderrinfo : Statement .rderrinfo := rfl
theorem idle : Statement .idle := rfl
theorem pad : Statement .pad := rfl
theorem pack : Statement .pack := rfl
theorem mix : Statement .mix := rfl
theorem diffuse : Statement .diffuse := rfl
theorem foldE : Statement .foldE := rfl
theorem foldX : Statement .foldX := rfl

end Sys2Proof.Laws.TableRow
end

