-- ==== Sys2Proof/Laws/Script.lean ====
section
/-! SUPPORT. What the host's turn can do, and how runs of a script compose. -/

namespace Sys2Proof.Machine

theorem issueNext_issues {s : State} (op : HostOp) (rest : List HostOp) (hs : s.seq = .idle)
    (hp : s.pending = []) :
    issueNext (op :: rest) s = (rest, { s with pending := op.transactions s.n }) := by
  simp [issueNext, hs, hp]

theorem issueNext_waits {s : State} (script : List HostOp) (h : s.seq ≠ .idle ∨ s.pending ≠ []) :
    issueNext script s = (script, s) := by
  unfold issueNext
  split
  · rename_i hs hp
    rcases h with h | h
    · exact absurd hs h
    · exact absurd hp h
  · rfl

@[simp] theorem issueNext_nil (s : State) : issueNext [] s = ([], s) := by
  unfold issueNext
  split <;> simp_all

/-- The host's turn changes nothing but the transactions to be served. -/
theorem issueNext_frame (script : List HostOp) (s : State) :
    (issueNext script s).2 = { s with pending := (issueNext script s).2.pending } := by
  unfold issueNext
  split <;> rfl

/-- A step of a script's run, where the machine's step answers a next state. -/
theorem runScript_succ {k : Nat} {script : List HostOp} {s t : State}
    (h : step (issueNext script s).2 = .next t) :
    runScript (k + 1) script s = runScript k (issueNext script s).1 t := by
  simp [runScript, h]

/-- A run of j + k steps is one of j steps and then one of k. -/
theorem runScript_add {j k : Nat} {script rest : List HostOp} {s t : State}
    (h : runScript j script s = .next (rest, t)) :
    runScript (j + k) script s = runScript k rest t := by
  induction j generalizing script s with
  | zero =>
    simp only [runScript, Host.Outcome.next.injEq, Prod.mk.injEq] at h
    obtain ⟨rfl, rfl⟩ := h
    simp
  | succ j ih =>
    rw [Nat.add_right_comm]
    simp only [runScript] at h ⊢
    split at h
    · exact ih h
    · cases h
    · cases h

end Sys2Proof.Machine
end

