-- ==== Sys2Proof/Tests/Slice0.lean ====
section
/-! SUPPORT. The model's own tests. Expected values are 95_test_vectors.md's and 96_mixword_table.md's,
or worked out by hand from the rule named; a small instance (NMAX = LP = 16) keeps them short. The last
part shows, for every statement with hypotheses, data that meet them. -/

namespace Sys2Proof.Tests

open Sys2Proof.Machine

/-- The reference digits cut to 16 bytes, NMAX = 16: a legal instance (R7). -/
def tinyInstance : Config.Instance :=
  { nmax := 16, num := .reference,
    p := [0x33, 0x31, 0x34, 0x31, 0x35, 0x39, 0x32, 0x36,
          0x35, 0x33, 0x35, 0x38, 0x39, 0x37, 0x39, 0x33] }

def tiny : State := State.resetFor tinyInstance

/-- H = P[0, 8), as after CREATE 8. -/
def prefix8 : Cells Byte :=
  [(0, 0x33), (1, 0x31), (2, 0x34), (3, 0x31), (4, 0x35), (5, 0x39), (6, 0x32), (7, 0x36)]

/-- A session of 8 bytes with nothing pushed. -/
def session : State := { tiny with h := prefix8, n := 8, valid := true }

/-- The session of program 1 with "abc" pushed and its ABSORB issued. -/
def pushed : State :=
  { session with b := [(0, 0x61), (1, 0x62), (2, 0x63)], wptr := 3, pending := [absorbOp] }

def padded : State :=
  { pushed with
    b := [(0, 0x61), (1, 0x62), (2, 0x63), (3, 0x33), (4, 0x31), (5, 0x34), (6, 0x31), (7, 0x35)]
    seq := .pack }

def packed : State := { padded with a := [(0, 0x3531343133636261)], rnd := 13, seq := .mix }

/-- Before the fourth DIFFUSE of program 1. -/
def mixed : State :=
  { packed with a := [(0, 0x027B58226F012480)], p := [(0, 0x027B58226F012480)], rnd := 52,
                seq := .diffuse }

/-- Before the FOLD of program 1. -/
def folding : State :=
  { packed with
    h := [(0, 0xB3), (1, 0xB1), (2, 0xB4), (3, 0xB1), (4, 0xB5), (5, 0xB9), (6, 0xB2), (7, 0xB6)]
    a := [(0, 0x46FA49A2EBEA6000)], p := [(0, 0x46FA49A2EBEA6000)], rnd := 78, seq := .fold }

def stateOf : Host.Outcome State Fault Refusal → Option State
  | .next s => some s
  | .fault _ => none
  | .refused _ => none

/-! ## Well-formedness refuses ill-formed data -/

theorem test_wellFormed_instance_nmax_too_small :
    { tinyInstance with nmax := 0 }.wellFormed = false := by decide
theorem test_wellFormed_instance_nmax_too_large :
    ({ nmax := 4104, p := List.replicate 4104 0x31, num := .reference } :
      Config.Instance).wellFormed = false := by decide +kernel
theorem test_wellFormed_instance_nmax_not_multiple_of_8 :
    { tinyInstance with nmax := 12 }.wellFormed = false := by decide
theorem test_wellFormed_instance_nmax_above_lp :
    { tinyInstance with nmax := 24 }.wellFormed = false := by decide
theorem test_wellFormed_instance_p_not_a_digit :
    { tinyInstance with p := 0x2E :: tinyInstance.p }.wellFormed = false := by decide
theorem test_wellFormed_tiny : tinyInstance.wellFormed = true := by decide
theorem test_wellFormed_transaction_data_too_wide :
    (memWrite 0x0020 .one 0x100).wellFormed = false := by decide
theorem test_wellFormed_transaction_read_with_data :
    ({ dir := .read, size := .four, addr := 4, data := 1 } : Transaction).wellFormed = false := by
  decide
theorem test_wellFormed_script_create_size : (ScriptLine.create 65536 0).wellFormed = false := by
  decide
theorem test_wellFormed_script_create_mode : (ScriptLine.create 8 2).wellFormed = false := by decide
theorem test_wellFormed_script_createSize : (ScriptLine.createSize 65536).wellFormed = false := by
  decide
theorem test_wellFormed_script_push : (ScriptLine.push 256).wellFormed = false := by decide
theorem test_wellFormed_script_rdh : (ScriptLine.rdh 4096).wellFormed = false := by decide
theorem test_wellFormed_script_cmd : (ScriptLine.cmd (2 ^ 32)).wellFormed = false := by decide
theorem test_wellFormed_script_block : (ScriptLine.block []).wellFormed = false := by decide
theorem test_wellFormed_script_hash :
    (ScriptLine.hash 0 0 [0x61]).wellFormed = false ∧
    (ScriptLine.hash 65536 0 []).wellFormed = false ∧ (ScriptLine.hash 8 2 []).wellFormed = false ∧
    (ScriptLine.hash 7 0 [0x61]).wellFormed = true := by decide

/-! ## Decoding: words written out from 30_encoding.md and 95_test_vectors.md section 2 -/

/-- OPC 00000001, Z 0000000, M 1, IMM 0000000000001000. -/
theorem test_decode_create :
    decode (.command 0b00000001000000010000000000001000) = .ok (.create 8 .cross) := by decide
theorem test_decode_create_largest :
    decode (.command 0x0101FFFF) = .ok (.create 65535 .cross) := by decide
theorem test_decode_absorb :
    decode (.command 0b00000010000000000000000000000000) = .ok .absorb := by decide
theorem test_decode_illegal_words :
    [0x00000000, 0x01020008, 0x01800008, 0x02000001, 0x02010000, 0x03000000, 0xFFFFFFFF].all
      (fun c => decide ((decode (.command c)).toOption = none)) = true := by decide
theorem test_decode_wrcmd :
    decode (.transaction 0b10100000000000000000 0x03000000) = .ok (.wrcmd 0x03000000) := by decide
theorem test_decode_push :
    decode (.transaction 0b10000000000000100000 0x61) = .ok (.push 0x61) := by decide
theorem test_decode_rdh_last :
    decode (.transaction 0b00000001111111111111 0) = .ok (.rdh 4095) := by decide
theorem test_decode_register_reads :
    decode (.transaction 0b00100000000000000100 0) = .ok .rdstatus ∧
    decode (.transaction 0b00100000000000001000 0) = .ok .rdcfg ∧
    decode (.transaction 0b00100000000000001100 0) = .ok .rdcap ∧
    decode (.transaction 0b00100000000000010000 0) = .ok .rdfill ∧
    decode (.transaction 0b00100000000000010100 0) = .ok .rderrinfo := by decide
/-- IDLE to DIFFUSE ignore the MODE bit; FOLD is selected by it; SEQ = 6 and 7 select nothing (R87). -/
theorem test_decode_selectors :
    (List.range 16).map (fun us => (decode (.selector (BitVec.ofNat 4 us))).toOption) =
      [some .idle, some .pad, some .pack, some .mix, some .diffuse, some .foldE, none, none,
       some .idle, some .pad, some .pack, some .mix, some .diffuse, some .foldX, none, none] := by
  decide
/-- T7.23 to T7.31: transactions that are no bus operation. -/
theorem test_decode_illegal_transactions :
    [memRead 0x0000 .four, memWrite 0x0004 .four 0, memRead 0x0004 .one, memRead 0x0004 .two,
     memRead 0x0004 .eight, memRead 0x0006 .four, memWrite 0x0020 .four 0x61626364,
     memRead 0x0020 .one, memWrite 0x1000 .one 0, memRead 0x1000 .four, memRead 0x0018 .four,
     memRead 0x0024 .one, memRead 0x2000 .one, memRead 0xFFFC .four].all
      (fun t => decide ((decode t.words).toOption = none)) = true := by decide
/-- R90: what the script lines assemble to. -/
theorem test_assemble_create :
    (ScriptLine.create 16 1).assemble = [.transaction (memWrite 0x0000 .four 0x01010010)] := by decide
theorem test_assemble_defaults :
    ScriptLine.createDefault.assemble = [.transaction (memWrite 0x0000 .four 0x01000080)] ∧
    (ScriptLine.rdh 127).assemble = [.transaction (memRead 0x107F .one)] := by decide
/-- R92: HASH of nine bytes in blocks of eight is two BLOCKs and a DIGEST. -/
theorem test_assemble_hash :
    (ScriptLine.hash 8 0 (List.replicate 9 0x31)).assemble.length = 1 + 9 + 2 + 1 := by decide
/-- R92: DIGEST goes by the current CFG.N, which is 8 in the session and 0 after reset. -/
theorem test_issue_digest :
    (issueNext [.digest] session).2.pending = (List.range 8).map rdhOp ∧
    issueNext [.digest] tiny = ([], tiny) := by decide
/-- R92 after reset: CREATE 12 is refused, so the DIGEST of HASH 12 reads nothing. -/
theorem test_hash_of_refused_size :
    (match runScript 4 (ScriptLine.hash 12 0 [0x61]).assemble tiny with
      | .next (rest, t) => some (rest.length, t.err, t.replies)
      | _ => none) = some (0, .invalidConfig, [.ok, .ok, .ok]) := by decide
/-- R181. -/
theorem test_hexRender : hexRender [0xB3, 0x0F] = [0x62, 0x33, 0x30, 0x66] := by decide
/-- R53. -/
theorem test_lanes : lanes 0x01010008 = [0x08, 0x00, 0x01, 0x01] := by decide

/-! ## Reset, and the first instruction after it -/

/-- T7.1 for the reference instance. -/
theorem test_reset_registers :
    [statusWord State.reset, cfgWord State.reset, capWord State.reset, fillWord State.reset,
     errInfoWord State.reset] = [0, 0, 0x00000400, 0, 0] := by decide
/-- The reference P is legal, and begins and ends as R24 prints it. -/
theorem test_reference_instance :
    referenceInstance.wellFormed = true ∧
      referenceP.take 8 = [0x33, 0x31, 0x34, 0x31, 0x35, 0x39, 0x32, 0x36] ∧
      referenceP.drop 1020 = [0x33, 0x32, 0x37, 0x38] := by decide +kernel
/-- Every row of the opcode table, run as the first instruction after reset, answers a next state. -/
theorem test_every_row_runs_after_reset :
    [(32, 0x01000008), (32, 0x02000000), (24, 0xA0000), (24, 0x80020), (24, 0x01000), (24, 0x20004),
     (24, 0x20008), (24, 0x2000C), (24, 0x20010), (24, 0x20014), (8, 0x0), (8, 0x1), (8, 0x2),
     (8, 0x3), (8, 0x4), (8, 0x5), (8, 0xD)].all
      (fun r => (stateOf (step (State.reset.withFetchWord r.1 r.2))).isSome) = true := by
  decide +kernel

/-! ## Commands and bus operations -/

/-- T7.5. -/
theorem test_create_opens_session :
    (stateOf (exec (.create 8 .elementwise) tiny)).map (fun t => (t.h, t.n, t.valid, t.wptr)) =
      some (prefix8, 8, true, 0) := by decide
/-- T7.9. -/
theorem test_create_illegal_size :
    (stateOf (exec (.create 12 .elementwise) tiny)).map (fun t => (statusWord t, t.errInfo, t.n)) =
      some (0x00000010, 0x0100000C, 0) := by decide
/-- T7.4. -/
theorem test_absorb_no_session :
    (stateOf (exec .absorb tiny)).map (fun t => (statusWord t, t.errInfo)) =
      some (0x00000030, 0x02000000) := by decide
theorem test_absorb_starts : (stateOf (exec .absorb pushed)).map (·.seq) = some .pad := by decide
/-- T7.13: CFG is kept, VALID cleared. -/
theorem test_wrcmd_illegal :
    (stateOf (exec (.wrcmd 0x02000001) session)).map
      (fun t => (statusWord t, t.errInfo, cfgWord t)) =
      some (0x00000020, 0x02000001, 0x00000008) := by decide
theorem test_wrcmd_create :
    (stateOf (exec (.wrcmd 0x01010010) tiny)).map (fun t => (statusWord t, cfgWord t)) =
      some (0x00000001, 0x00010010) := by decide
/-- T7.15. -/
theorem test_push_stores :
    (stateOf (exec (.push 0x61) session)).map (fun t => (t.b, fillWord t)) =
      some ([(0, 0x61)], 1) := by decide
/-- T7.16. -/
theorem test_push_overflow :
    (stateOf (exec (.push 0x99) { session with wptr := 8 })).map
      (fun t => (statusWord t, t.errInfo, fillWord t)) = some (0x00000040, 0x00000099, 8) := by
  decide
/-- T7.17. -/
theorem test_rdh_inside : (stateOf (exec (.rdh 7) session)).map (·.replies) = some [.byte 0x36] := by
  decide
/-- T7.18. -/
theorem test_rdh_outside : (stateOf (exec (.rdh 8) session)).map (·.replies) = some [.busError] := by
  decide
theorem test_rdstatus :
    (stateOf (exec .rdstatus { session with valid := false, err := .overflow })).map (·.replies) =
      some [.word 0x00000040] := by decide
theorem test_rdcfg :
    (stateOf (exec .rdcfg { session with mode := .cross })).map (·.replies) =
      some [.word 0x00010008] := by decide
theorem test_rdcap : (stateOf (exec .rdcap session)).map (·.replies) = some [.word 16] := by decide
theorem test_rdfill : (stateOf (exec .rdfill pushed)).map (·.replies) = some [.word 3] := by decide
theorem test_rderrinfo :
    (stateOf (exec .rderrinfo { tiny with errInfo := 0x41 })).map (·.replies) =
      some [.word 0x41] := by decide
/-- T7.20: the first error is kept. -/
theorem test_first_error_kept :
    (stateOf (exec (.create 12 .elementwise)
      { tiny with err := .noSession, errInfo := 0x02000000 })).map
        (fun t => (statusWord t, t.errInfo)) = some (0x00000030, 0x02000000) := by decide

/-! ## Micro-operations: the steps of program 1 -/

theorem test_idle : (stateOf (exec .idle tiny)).map (·.seq) = some .idle := by decide
theorem test_pad :
    (stateOf (exec .pad { pushed with seq := .pad })).map (fun t => (t.b, t.seq)) =
      some (padded.b, .pack) := by decide
theorem test_pack :
    (stateOf (exec .pack padded)).map (fun t => (t.a, t.rnd, t.seq)) =
      some (packed.a, 13, .mix) := by decide
/-- The first row of program 1's trace: every intermediate of R133 for the reference instance. -/
theorem test_mix :
    (stateOf (exec .mix packed)).map (fun t => (t.a, t.p, t.seq)) =
      some ([(0, 0x262F2BAFA4497C00)], [(0, 0x262F2BAFA4497C00)], .diffuse) := by decide +kernel
/-- A negative x0 whose ceiling without the absolute value would be 0 (95, second trace). -/
theorem test_mixword_negative :
    mixX0 .reference 0x8000000000000000 13 = 0xBDAD28ADF607113E ∧
      mixword .reference 0x8000000000000000 13 = 0x00000000000034D7 := by decide +kernel
/-- T5.1, and the round loop at RND = 52. -/
theorem test_diffuse :
    (stateOf (exec .diffuse mixed)).map (fun t => (t.h, t.rnd, t.seq)) =
      some (folding.h, 65, .mix) := by decide
theorem test_diffuse_last_round :
    (stateOf (exec .diffuse { mixed with rnd := 65 })).map (fun t => (t.rnd, t.seq)) =
      some (78, .fold) := by decide
/-- T5.6. -/
theorem test_foldE :
    (stateOf (exec .foldE folding)).map (fun t => (t.h.map (·.2), t.wptr, t.seq, t.replies)) =
      some ([0xB3, 0xD1, 0x5E, 0x5A, 0x17, 0xF0, 0x48, 0xF0], 0, .idle, [.ok]) := by decide
/-- T5.7. -/
theorem test_foldX :
    (stateOf (exec .foldX folding)).map (fun t => t.h.map (·.2)) =
      some [0x85, 0xE7, 0x68, 0x6C, 0x21, 0xC6, 0x7E, 0xC6] := by decide
/-- Conversion vectors of 95 section 4: ties go to the even significand. -/
theorem test_cvtU64F64 :
    [0x0020000000000001, 0x0020000000000003, 0x3239353134313300, 0xFFFFFFFFFFFFFBFF,
     0xFFFFFFFFFFFFFC00].map cvtU64F64 =
      [0x4340000000000000, 0x4340000000000002, 0x43C91C9A989A189A, 0x43EFFFFFFFFFFFFF,
       0x43F0000000000000] := by decide +kernel

/-! ## Witnesses: for each statement with hypotheses, data that meet all of them, clause by clause -/

theorem test_witness_DecodeEncodeRoundTrip :
    (Instr.create 65535 .cross).wellFormed = true ∧ (Instr.rdh 4095).wellFormed = true := by decide

theorem test_witness_CommandDecodingDropsNoBit :
    decode (.command 0x0101FFFF) = .ok (.create 65535 .cross) ∧
      decode (.command 0x02000000) = .ok .absorb := by decide

theorem test_witness_StepRunsTheDecodedOperation :
    (tiny.NoReset ∧ tiny.seq = .idle ∧ tiny.pending = [] ∧ fetch tiny = .ok .idle) ∧
    (pushed.NoReset ∧ pushed.seq = .idle ∧ pushed.pending = [absorbOp] ∧
      fetch pushed = .ok .absorb) ∧
    (padded.NoReset ∧ padded.seq ≠ .idle ∧ fetch padded = .ok .pack) := by decide

theorem test_witness_CommandWriteRunsItsCommand :
    pushed.NoReset ∧ pushed.seq = .idle ∧ pushed.pending = cmdWrite 0x02000000 :: [] ∧
      decode (.command 0x02000000) = .ok .absorb := by decide

theorem test_witness_IllegalTransactionChangesNothing :
    ∃ s : State, s.NoReset ∧ s.seq = .idle ∧ s.pending = memRead 0x0006 .four :: [] ∧
      ¬ s.legalAccess (memRead 0x0006 .four) ∧ ¬ s.legalAccess (memRead 0x1008 .one) ∧
      s.legalAccess (memRead 0x1007 .one) :=
  ⟨{ session with pending := [memRead 0x0006 .four] }, by decide⟩

theorem test_witness_ResetEventClearsTheEngine :
    ({ padded with resetLine := [true] } : State).resetLine = true :: [] := by decide

theorem test_witness_CreateOpensASessionOrRaises :
    (8 ≤ (8 : BitVec 16).toNat ∧ (8 : BitVec 16).toNat % 8 = 0 ∧
      (8 : BitVec 16).toNat ≤ tiny.inst.nmax.toNat ∧ tiny.inst.nmax.toNat ≤ tiny.inst.lp) ∧
    (8 ≤ (16 : BitVec 16).toNat ∧ (16 : BitVec 16).toNat % 8 = 0 ∧
      (16 : BitVec 16).toNat ≤ tiny.inst.nmax.toNat) ∧
    ((0 : BitVec 16).toNat < 8 ∧ (12 : BitVec 16).toNat % 8 ≠ 0 ∧
      tiny.inst.nmax.toNat < (24 : BitVec 16).toNat) := by decide

theorem test_witness_AbsorbStartsOrIsNoOpOrRaises :
    tiny.valid = false ∧ (session.valid = true ∧ session.wptr = 0) ∧
      (pushed.valid = true ∧ pushed.wptr ≠ 0) := by decide

theorem test_witness_AbsorbOfNothingChangesNoRegister :
    session.valid = true ∧ session.wptr = 0 := by decide

theorem test_witness_WrcmdDeliversItsWord :
    (pushed.valid = true ∧ pushed.wptr ≠ 0) ∧
    ((0x01010010 : Reg).extractLsb' 17 15 = 0x0080 ∧
      8 ≤ ((0x01010010 : Reg).extractLsb' 0 16).toNat ∧
      ((0x01010010 : Reg).extractLsb' 0 16).toNat % 8 = 0 ∧
      ((0x01010010 : Reg).extractLsb' 0 16).toNat ≤ tiny.inst.nmax.toNat ∧
      tiny.inst.nmax.toNat ≤ tiny.inst.lp) ∧
    ((0x02000001 : Reg).extractLsb' 17 15 ≠ 0x0080 ∧ (0x02000001 : Reg) ≠ 0x02000000) := by decide

theorem test_witness_EmptyInputDigestIsThePrefixOfP :
    legalSize tiny.inst 8 = true ∧
      ∃ t, exec (.create 8 .elementwise) tiny = .next t := ⟨by decide, _, rfl⟩

theorem test_witness_PushStoresTheByteOrRaises :
    tiny.valid = false ∧
    (({ session with wptr := 8 } : State).valid = true ∧
      ({ session with wptr := 8 } : State).wptr = ({ session with wptr := 8 } : State).n) ∧
    (({ session with wptr := 7 } : State).valid = true ∧
      ({ session with wptr := 7 } : State).wptr ≠ session.n ∧
      ({ session with wptr := 7 } : State).wptr.toNat < session.inst.nmax.toNat) := by decide

theorem test_witness_RdhReturnsTheByteOrBusError :
    tiny.valid = false ∧ session.n.toNat ≤ (8 : BitVec 12).toNat ∧
    (session.valid = true ∧ (7 : BitVec 12).toNat < session.n.toNat ∧
      session.h.read (7 : BitVec 12).toNat = some 0x36) := by decide

theorem test_witness_PadFillsTheBlockFromP :
    (pushed.wptr.toNat ≤ pushed.n.toNat ∧ pushed.n.toNat ≤ pushed.inst.nmax.toNat ∧
      pushed.inst.nmax.toNat ≤ pushed.inst.lp) ∧
    (∃ j, j < pushed.n.toNat - pushed.wptr.toNat) := ⟨by decide, 4, by decide⟩

theorem test_witness_PackLaysBytesLittleEndian :
    padded.b.filled (8 * wordCount padded) = true ∧ padded.n.toNat ≤ padded.inst.nmax.toNat ∧
      0 < wordCount padded := by decide

theorem test_witness_MixTransformsEveryLane :
    packed.a.filled (wordCount packed) = true ∧ packed.n.toNat ≤ packed.inst.nmax.toNat ∧
      0 < wordCount packed := by decide

theorem test_witness_DiffuseUpdatesEveryByte :
    mixed.a.filled (wordCount mixed) = true ∧ mixed.h.filled mixed.n.toNat = true ∧
      mixed.n.toNat ≤ mixed.inst.nmax.toNat ∧ 0 < mixed.n.toNat := by decide

theorem test_witness_FoldElementwiseAddsSerialisedWords :
    folding.p.filled (wordCount folding) = true ∧ folding.h.filled folding.n.toNat = true ∧
      folding.n.toNat % 8 = 0 ∧ folding.n.toNat ≤ folding.inst.nmax.toNat ∧ 7 < folding.n.toNat := by
  decide

theorem test_witness_FoldCrossAddsEveryOtherByte :
    folding.p.filled (wordCount folding) = true ∧ folding.h.filled folding.n.toNat = true ∧
      folding.n.toNat % 8 = 0 ∧ folding.n.toNat ≤ folding.inst.nmax.toNat ∧ 7 < folding.n.toNat := by
  decide

theorem test_witness_CrossFoldAddsTotalAndOwnByte :
    ([1, 2] : List Byte).length = ([3, 4] : List Byte).length ∧ ([1, 2] : List Byte)[1]? = some 2 ∧
      ([3, 4] : List Byte)[1]? = some 4 := by decide

theorem test_witness_FoldModesAgreeExactlyWhenTotalIsZero :
    ([1, 2] : List Byte).length = ([3, 3] : List Byte).length ∧
      ([3, 3] : List Byte).foldl (fun a b => a ^^^ b) 0 = 0 := by decide

theorem test_witness_CellsWithoutValuePropagate :
    (session.n.toNat ≤ session.inst.nmax.toNat ∧ session.n.toNat % 8 = 0 ∧ 0 < wordCount session ∧
      session.b.read 7 = none ∧ session.a.read 0 = none ∧ session.p.read 0 = none) ∧
    (({ session with h := prefix8.take 7 } : State).valid = true ∧
      (7 : BitVec 12).toNat < session.n.toNat ∧
      ({ session with h := prefix8.take 7 } : State).h.read (7 : BitVec 12).toNat = none) := by decide

/-- R21, log 3: a byte of H that holds no value still holds none after the fold; the others are folded. -/
theorem test_foldE_without_a_value :
    (stateOf (exec .foldE { folding with h := folding.h.erase 2 })).map (fun t => t.h) =
      some [(0, 0xB3), (1, 0xD1), (3, 0x5A), (4, 0x17), (5, 0xF0), (6, 0x48), (7, 0xF0)] := by decide

theorem test_witness_NoRuleReadsACellWithoutValue :
    (padded.Inv ∧ padded.NoReset ∧ fetch padded = .ok .pack) ∧
    (mixed.Inv ∧ mixed.NoReset ∧ fetch mixed = .ok .diffuse) ∧
    (folding.Inv ∧ folding.NoReset ∧ fetch folding = .ok .foldE) :=
  ⟨by decide, by decide, by decide⟩

theorem test_witness_ResetHasTheInvariant : tinyInstance.wellFormed = true := by decide

theorem test_witness_StepKeepsTheInvariant :
    pushed.Inv ∧ step pushed = .next { pushed with seq := .pad } := ⟨by decide, rfl⟩

theorem test_witness_InvariantStatesAlwaysStep :
    tiny.Inv ∧ session.Inv ∧ padded.Inv ∧ packed.Inv ∧ mixed.Inv ∧ folding.Inv :=
  ⟨by decide, by decide, by decide, by decide, by decide, by decide⟩

theorem test_witness_AbsorbComputesTheBlockFunction :
    pushed.Inv ∧ pushed.SessionOpen ∧ pushed.wptr ≠ 0 ∧ pushed.resetLine = [] ∧
      pushed.pending = absorbOp :: [] ∧ readOperation absorbOp.words = .ok .absorb := by decide

theorem test_witness_EveryAbsorbCompletes :
    padded.Inv ∧ padded.seq ≠ .idle ∧ padded.resetLine = [] := by decide

theorem test_witness_HostHasNoMoveDuringAnAbsorb :
    (padded.NoReset ∧ padded.seq ≠ .idle ∧ ∃ t, step padded = .next t) ∧
    (folding.NoReset ∧ folding.seq = .fold ∧ ∃ t, step folding = .next t) :=
  ⟨⟨by decide, by decide, _, rfl⟩, by decide, by decide, _, rfl⟩

theorem test_witness_StepKeepsTheInstance : ∃ t, step pushed = .next t := ⟨_, rfl⟩

theorem test_witness_FirstExceptionIsKeptUntilCreate :
    ∃ s t : State, exec (.push 0x41) s = .next t ∧ s.err ≠ .noError :=
  ⟨{ tiny with err := .overflow }, _, rfl, by decide⟩

theorem test_witness_OnlyCreateOpensASession :
    (∃ t, exec (.create 16 .cross) tiny = .next t ∧ tiny.valid = false ∧ t.valid = true) ∧
    (∃ t, exec .absorb tiny = .next t ∧ tiny.err = .noError ∧ t.err ≠ .noError) :=
  ⟨⟨_, rfl, rfl, rfl⟩, _, rfl, rfl, by decide⟩

theorem test_witness_DigestStateWrittenOnlyByCreateDiffuseFold :
    (∃ t, exec .pad pushed = .next t) ∧ (∀ n mode, Instr.pad ≠ .create n mode ∧
      Instr.pad ≠ .wrcmd (createWord n mode)) ∧ Instr.pad ≠ .diffuse ∧ Instr.pad ≠ .foldE ∧
      Instr.pad ≠ .foldX :=
  ⟨⟨_, rfl⟩, fun _ _ => ⟨nofun, nofun⟩, nofun, nofun, nofun⟩

theorem test_witness_ConfigWrittenOnlyByCreate :
    ∃ t, exec (.create 16 .cross) tiny = .next t ∧ t.n = 16 := ⟨_, rfl, rfl⟩

theorem test_witness_DigestReadsTheWholeState :
    ∃ s : State, s.Inv ∧ s.SessionOpen ∧ s.resetLine = [] ∧
      s.pending = digestOps s.n.toNat ++ [absorbOp] :=
  ⟨{ session with pending := digestOps 8 ++ [absorbOp] }, by decide⟩

theorem test_witness_HashReturnsTheDigestOfItsMessage :
    tiny.Inv ∧ tiny.seq = .idle ∧ tiny.resetLine = [] ∧ tiny.pending = [] ∧
      16 ≤ tiny.inst.nmax.toNat := by decide

theorem test_witness_HashOfARefusedSizeReadsNothing :
    (session.Inv ∧ session.seq = .idle ∧ session.resetLine = [] ∧ session.pending = []) ∧
      (0 < 8 ∧ 12 % 8 ≠ 0 ∧ session.inst.nmax.toNat < 24) := by decide

theorem test_witness_BlockAbsorbedTwiceCancels :
    (prefix8.map (·.2)).length = 8 ∧ 8 % 8 = 0 := by decide

theorem test_witness_PaddingIsNotLengthEncoding :
    (1 ≤ ([0x61] : List Byte).length ∧ ([0x61] : List Byte).length ≤ 8) ∧
    (1 ≤ (prefix8.map (·.2)).length ∧ (prefix8.map (·.2)).length ≤ 8) ∧ 8 ≤ tinyInstance.lp := by
  decide

theorem test_witness_RoundingIsToNearestEven :
    0 < 3 ∧ roundMag 1 3 < infPattern ∧ 0 < infPattern := by decide +kernel

theorem test_witness_ConversionFollowsItsAlgorithm :
    ((1 : Word) ≠ 0 ∧ Nat.log2 (1 : Word).toNat ≤ 52) ∧
      53 ≤ Nat.log2 (0x0020000000000001 : Word).toNat ∧
      2 ^ 64 - 2 ^ 10 ≤ (0xFFFFFFFFFFFFFC00 : Word).toNat := by decide +kernel

theorem test_witness_IntegerIsTheCeilingOfTheMagnitude :
    (fFinite 0x43E0000000000000 = true ∧ fUnits 0x43E0000000000000 = 2 ^ 63 * fScale) ∧
    (fFinite 0xC004000000000000 = true ∧ fUnits 0xC004000000000000 ≤ 2 ^ 63 * fScale) := by
  decide +kernel

theorem test_witness_MixwordStaysInRange :
    Config.NumUnit.P2 .reference ∧ (13 : BitVec 7) ∈ roundConstants := ⟨reference_P2, by decide⟩

theorem test_witness_MixwordOfZero : Config.NumUnit.P1 .reference := reference_P1

end Sys2Proof.Tests
end

/-! SUPPORT. What the machine does in one step, as rules: which operation is fetched, everything an
operation of the host can do, and what never changes. -/

namespace Sys2Proof

/-- Is the instruction one the host brings (formats C and B of R80), not a micro-operation (format U)? -/
def Instr.fromHost : Instr → Bool
  | .create _ _ | .absorb | .wrcmd _ | .push _ | .rdh _ | .rdstatus | .rdcfg | .rdcap | .rdfill
  | .rderrinfo => true
  | .idle | .pad | .pack | .mix | .diffuse | .foldE | .foldX => false

namespace Machine

variable {s t : State} {i : Instr}

/-! ## The operation fetched -/

/-- The micro-operation that SEQ and CFG.MODE select (R87). -/
def microOp : FoldMode → Seq → Instr
  | _, .idle => .idle
  | _, .pad => .pad
  | _, .pack => .pack
  | _, .mix => .mix
  | _, .diffuse => .diffuse
  | .elementwise, .fold => .foldE
  | .cross, .fold => .foldX

theorem readOperation_selectorWord (s : State) :
    readOperation (.selector (selectorWord s)) = .ok (microOp s.mode s.seq) := by
  simp only [selectorWord]
  cases s.mode <;> cases s.seq <;> rfl

theorem fetch_busy (h : s.seq ≠ .idle) : fetch s = .ok (microOp s.mode s.seq) := by
  have hw : fetchWords s = .selector (selectorWord s) := by
    unfold fetchWords
    split
    · exact absurd ‹_› h
    · rfl
  rw [fetch, hw, readOperation_selectorWord]

theorem fetch_quiet (h : s.seq = .idle) (hp : s.pending = []) : fetch s = .ok .idle := by
  have hw : fetchWords s = .selector (selectorWord s) := by simp [fetchWords, h, hp]
  rw [fetch, hw, readOperation_selectorWord, h]
  rfl

theorem fetch_pending {w : Transaction} {rest : List Transaction} (h : s.seq = .idle)
    (hp : s.pending = w :: rest) : fetch s = readOperation w.words := by
  simp [fetch, fetchWords, h, hp]

theorem stepRun_of_fetch (h : fetch s = .ok i) : stepRun s = exec i s := by
  simp [stepRun, h]

theorem stepRun_of_reject {r : Reject} (h : fetch s = .error r) :
    stepRun s = .next (s.respond .busError) := by
  simp [stepRun, h]

theorem decodeCommand_fromHost {w : Reg} (h : decodeCommand w = .ok i) : i.fromHost = true := by
  rcases decodeCommand_cases w with ⟨n, mode, hw⟩ | hw | hw <;> rw [hw] at h <;> cases h <;> rfl

theorem decodeTransaction_fromHost {th : BitVec 20} {d : Reg}
    (h : decodeTransaction th d = .ok i) : i.fromHost = true := by
  unfold decodeTransaction at h
  split_ifs at h <;> cases h <;> rfl

/-- What a transaction is fetched as: the command its word is, or the bus operation its header is; a
WRCMD is fetched as such only where its word is no command (R86). -/
theorem readOperation_words {w : Transaction} (h : readOperation w.words = .ok i) :
    i.fromHost = true ∧ ∀ c, i = .wrcmd c → ∃ r, decodeCommand c = .error r := by
  simp only [readOperation, Transaction.words, decode] at h
  split at h
  · split at h
    · rename_i c _ _ j hc
      cases h
      refine ⟨decodeCommand_fromHost hc, ?_⟩
      rintro c' rfl
      rcases decodeCommand_cases c with ⟨n, mode, hw⟩ | hw | hw <;> rw [hw] at hc <;> cases hc
    · rename_i r hc
      cases h
      refine ⟨rfl, ?_⟩
      rintro c' ⟨⟩
      exact ⟨r, hc⟩
  · rename_i hne
    refine ⟨decodeTransaction_fromHost h, ?_⟩
    rintro c rfl
    exact absurd h (hne c)

/-! ## What an operation of the host can do -/

/-- The ways an operation of the host changes the machine: it is answered and nothing else happens, it
raises an exception, or it is a CREATE, a PUSH or an ABSORB that is accepted. -/
inductive HostEffect (i : Instr) (s : State) : State → Prop
  | answered (r : Reply) : HostEffect i s (s.respond r)
  | raised (e : ErrCode) (info : Reg) : e ≠ .noError → HostEffect i s (s.raise e info)
  | created (n : BitVec 16) (mode : FoldMode) : legalSize s.inst n = true → n.toNat ≤ s.inst.lp →
      HostEffect i s (({ s with h := s.h.putAll 0 ((s.inst.p.take n.toNat).map some), n := n,
                                mode := mode, wptr := 0 }.clearException).respond .ok)
  | pushed (b : Byte) : s.valid = true → s.wptr ≠ s.n → s.wptr.toNat + 1 ≤ s.inst.nmax.toNat →
      HostEffect i s
        ({ s with b := s.b.putAll s.wptr.toNat [some b], wptr := s.wptr + 1 }.respond .ok)
  | started : s.valid = true → s.wptr ≠ 0 →
      (i = .absorb ∨ ∃ c, i = .wrcmd c ∧ decodeCommand c = .ok .absorb) →
      HostEffect i s { s with seq := .pad }

theorem execCreate_effect {n : BitVec 16} {mode : FoldMode} (h : execCreate n mode s = .next t) :
    HostEffect i s t := by
  cases hl : legalSize s.inst n with
  | true =>
    obtain ⟨hlp, -, rfl⟩ := (execCreate_legal_next_iff hl).1 h
    exact .created n mode hl hlp
  | false =>
    rw [execCreate_illegal hl] at h
    cases h
    exact .raised _ _ nofun

theorem execAbsorb_effect (hi : i = .absorb ∨ ∃ c, i = .wrcmd c ∧ decodeCommand c = .ok .absorb)
    (h : execAbsorb s = .next t) : HostEffect i s t := by
  unfold execAbsorb at h
  split_ifs at h with hv hw <;> cases h
  · exact .raised _ _ nofun
  · exact .answered _
  · exact .started (by simpa using hv) hw hi

theorem execWrcmd_effect {c : Reg} (h : execWrcmd c s = .next t) :
    HostEffect (.wrcmd c) s t := by
  rcases decodeCommand_cases c with ⟨n, mode, hc⟩ | hc | hc
  · exact execCreate_effect (execWrcmd_create hc ▸ h)
  · exact execAbsorb_effect (.inr ⟨c, rfl, hc⟩) (execWrcmd_absorb hc ▸ h)
  · rw [execWrcmd_illegal hc] at h
    cases h
    exact .raised _ _ nofun

theorem execPush_effect {b : Byte} (h : execPush b s = .next t) : HostEffect i s t := by
  by_cases hv : s.valid = true
  · by_cases hn : s.wptr = s.n
    · simp only [execPush, hv, hn, Bool.true_eq_false, if_true, if_false] at h
      cases h
      exact .raised _ _ nofun
    · obtain ⟨hc, rfl⟩ := (execPush_accepted_next_iff hv hn).1 h
      exact .pushed b hv hn hc
  · simp only [execPush, Bool.not_eq_true] at h hv
    rw [if_pos hv] at h
    cases h
    exact .raised _ _ nofun

theorem execRdh_effect {k : BitVec 12} (h : execRdh k s = .next t) : HostEffect i s t := by
  unfold execRdh at h
  split_ifs at h
  · cases h
    exact .answered _
  · split at h <;> cases h <;> exact .answered _

/-- Everything an operation of the host can do (R81, R86). -/
theorem exec_host_effect (hi : i.fromHost = true) (h : exec i s = .next t) : HostEffect i s t := by
  cases i with
  | create n mode => exact execCreate_effect h
  | absorb => exact execAbsorb_effect (.inl rfl) h
  | wrcmd c => exact execWrcmd_effect h
  | push b => exact execPush_effect h
  | rdh k => exact execRdh_effect h
  | rdstatus | rdcfg | rdcap | rdfill | rderrinfo => cases h; exact .answered _
  | idle | pad | pack | mix | diffuse | foldE | foldX => cases hi

/-! ## NMAX, P and the numeric unit -/

theorem HostEffect.inst_eq (h : HostEffect i s t) : t.inst = s.inst := by
  cases h <;> rfl

/-- No operation writes NMAX, P or the numeric unit (R7, R22, R33). -/
theorem exec_inst (h : exec i s = .next t) : t.inst = s.inst := by
  cases i with
  | idle => cases h; rfl
  | pad => obtain ⟨-, -, rfl⟩ := execPad_next_iff.1 h; rfl
  | pack => obtain ⟨-, rfl⟩ := execPack_next_iff.1 h; rfl
  | mix => obtain ⟨-, rfl⟩ := execMix_next_iff.1 h; rfl
  | diffuse => obtain ⟨-, rfl⟩ := execDiffuse_next_iff.1 h; rfl
  | foldE => obtain ⟨-, rfl⟩ := execFoldE_next_iff.1 h; rfl
  | foldX => obtain ⟨-, rfl⟩ := execFoldX_next_iff.1 h; rfl
  | create | absorb | wrcmd | push | rdh | rdstatus | rdcfg | rdcap | rdfill | rderrinfo =>
    exact (exec_host_effect rfl h).inst_eq

theorem stepRun_inst (h : stepRun s = .next t) : t.inst = s.inst := by
  cases hf : fetch s with
  | ok i => exact exec_inst (stepRun_of_fetch hf ▸ h)
  | error r =>
    rw [stepRun_of_reject hf] at h
    cases h
    rfl

/-- Settles O37: the reset event and every operation fetched leave NMAX, P and the
numeric unit as they are. -/
theorem stepKeepsTheInstance : Obligations.StepKeepsTheInstance := by
  intro s t h
  rcases step_cases s with ⟨rest, -, hr⟩ | ⟨-, hr⟩ <;> rw [hr] at h
  · cases h
    rfl
  · have hi := stepRun_inst h
    exact hi

end Machine

end Sys2Proof

/-! SUPPORT. The invariant: its parts for the ways a step changes the state, then one lemma per
operation, then the step. -/

namespace Sys2Proof.Machine

variable {s t : State} {i : Instr}

/-! ## Parts of the invariant -/

theorem legalSize_iff {inst : Config.Instance} {n : BitVec 16} :
    legalSize inst n = true ↔
      8 ≤ n.toNat ∧ n.toNat % 8 = 0 ∧ n.toNat ≤ inst.nmax.toNat := by
  simp [legalSize, and_assoc]

/-- Values put from index 0 on fill as many cells. -/
theorem Cells.filled_putAll_zero {α : Type} {n : Nat} (c : Cells α) {xs : List α}
    (h : xs.length = n) : (c.putAll 0 (xs.map some)).filled n = true :=
  Cells.filled_putAll 0 xs fun k hk => .inl ⟨by omega, by omega⟩

/-- Values put from the end of the filled cells on fill as many more. -/
theorem Cells.filled_putAll_append {α : Type} {m n : Nat} {c : Cells α} {xs : List α}
    (hc : c.filled m = true) (h : n ≤ m + xs.length) :
    (c.putAll m (xs.map some)).filled n = true := by
  refine Cells.filled_putAll m xs fun k hk => ?_
  by_cases hm : k < m
  · exact .inr (Cells.filled_iff.1 hc k hm)
  · exact .inl ⟨by omega, by omega⟩

theorem readCells_zero_of_filled {α : Type} {c : Cells α} {n : Nat} (h : c.filled n = true) :
    ∃ xs : List α, xs.length = n ∧ readCells c 0 n = xs.map some := by
  obtain ⟨xs, hxs⟩ := readCells_of_filled (c := c) (lo := 0) (n := n) fun k hk => by
    simpa using Cells.filled_iff.1 h k hk
  exact ⟨xs, (readCells_eq_map_some_iff.1 hxs).1, hxs⟩

theorem packWords_length (w : Nat) (bytes : List Byte) : (packWords w bytes).length = w := by
  induction w generalizing bytes with
  | zero => rfl
  | succ w ih => rw [packWords, List.length_cons, ih]

theorem serialise_length (words : List Word) : (serialise words).length = 8 * words.length := by
  have h := congrArg List.length (serialiseCells_map_some words)
  simpa using h.symm

theorem map_optionMap_some {α β : Type} (f : α → β) (xs : List α) :
    (xs.map some).map (Option.map f) = (xs.map f).map some := by
  simp

theorem memory_wf_putH {lo : Nat} {xs : List (Option Byte)} (h : Memory.wf s = true)
    (hc : lo + xs.length ≤ s.inst.nmax.toNat) :
    Memory.wf { s with h := s.h.putAll lo xs } = true :=
  memory_wf_writeH h (State.writeH_ok_iff.2 ⟨.inr hc, rfl⟩)

theorem memory_wf_putB {lo : Nat} {xs : List (Option Byte)} (h : Memory.wf s = true)
    (hc : lo + xs.length ≤ s.inst.nmax.toNat) :
    Memory.wf { s with b := s.b.putAll lo xs } = true :=
  memory_wf_writeB h (State.writeB_ok_iff.2 ⟨.inr hc, rfl⟩)

theorem memory_wf_putA {lo : Nat} {xs : List (Option Word)} (h : Memory.wf s = true)
    (hc : lo + xs.length ≤ s.inst.nmax.toNat / 8) :
    Memory.wf { s with a := s.a.putAll lo xs } = true :=
  memory_wf_writeA h (State.writeA_ok_iff.2 ⟨.inr hc, rfl⟩)

theorem memory_wf_putP {lo : Nat} {xs : List (Option Word)} (h : Memory.wf s = true)
    (hc : lo + xs.length ≤ s.inst.nmax.toNat / 8) :
    Memory.wf { s with p := s.p.putAll lo xs } = true :=
  memory_wf_writeP h (State.writeP_ok_iff.2 ⟨.inr hc, rfl⟩)

theorem busyOk_of_idle (h : s.seq = .idle) : s.BusyOk := fun hne => absurd h hne

theorem sequenceOk_idle (h : s.seq = .idle) (hr : s.rnd = 0 ∨ s.rnd = 78) : s.SequenceOk := by
  refine ⟨fun _ => hr, ?_, ?_, ?_, ?_, ?_⟩ <;> simp [h]

theorem sequenceOk_pad (h : s.seq = .pad) (hr : s.rnd = 0 ∨ s.rnd = 78) : s.SequenceOk := by
  refine ⟨fun _ => hr, ?_, ?_, ?_, ?_, ?_⟩ <;> simp [h]

theorem sequenceOk_pack (h : s.seq = .pack) (hr : s.rnd = 0 ∨ s.rnd = 78)
    (hb : s.b.filled s.n.toNat = true) : s.SequenceOk := by
  refine ⟨fun _ => hr, fun _ => hb, ?_, ?_, ?_, ?_⟩ <;> simp [h]

theorem sequenceOk_mix (h : s.seq = .mix) (hr : s.rnd ∈ roundConstants)
    (ha : s.a.filled (wordCount s) = true) : s.SequenceOk := by
  refine ⟨?_, ?_, fun _ => hr, fun _ => ha, ?_, ?_⟩ <;> simp [h]

theorem sequenceOk_diffuse (h : s.seq = .diffuse) (hr : s.rnd ∈ roundConstants)
    (ha : s.a.filled (wordCount s) = true)
    (hp : ∀ k, k < wordCount s → s.p.read k = s.a.read k) : s.SequenceOk := by
  refine ⟨?_, ?_, fun _ => hr, fun _ => ha, fun _ => hp, ?_⟩ <;> simp [h]

theorem sequenceOk_fold (h : s.seq = .fold) (hr : s.rnd = 78)
    (ha : s.a.filled (wordCount s) = true)
    (hp : ∀ k, k < wordCount s → s.p.read k = s.a.read k) : s.SequenceOk := by
  refine ⟨?_, ?_, ?_, fun _ => ha, fun _ => hp, fun _ => hr⟩ <;> simp [h]

theorem inv_rnd_of_idle (h : s.Inv) (hs : s.seq = .idle) : s.rnd = 0 ∨ s.rnd = 78 := by
  obtain ⟨-, -, -, -, -, -, hrest, -⟩ := h
  exact hrest (.inl hs)

/-- While an ABSORB runs, N is legal: there is a session (R31, R174). -/
theorem inv_legal_of_busy (h : s.Inv) (hs : s.seq ≠ .idle) : legalSize s.inst s.n = true := by
  obtain ⟨-, -, -, ⟨hsession, -⟩, -, hbusy, -⟩ := h
  obtain ⟨hvalid, -⟩ := hbusy hs
  exact (hsession hvalid).1

/-- With SEQ idle the invariant does not depend on the host's side. -/
theorem inv_host_frame (h : s.Inv) (hs : s.seq = .idle) (pending : List Transaction)
    (replies : List Reply) (resetLine : List Bool) :
    { s with pending := pending, replies := replies, resetLine := resetLine }.Inv := by
  obtain ⟨hinst, hmem, hcfg, hst, hbuf, -, hseq⟩ := h
  exact ⟨hinst, hmem, hcfg, hst, hbuf, busyOk_of_idle hs, hseq⟩

/-! ## Reset -/

theorem resetFor_inv {inst : Config.Instance} (h : inst.wellFormed = true) :
    (State.resetFor inst).Inv :=
  ⟨h, memory_wf_resetFor inst, .inl rfl, ⟨nofun, fun _ => rfl⟩, ⟨Nat.le_refl _, rfl, rfl⟩,
    busyOk_of_idle rfl, sequenceOk_idle rfl (.inl rfl)⟩

/-- The reset event establishes the invariant in every state whose parameters are legal (R7, R252). -/
theorem takeReset_inv (h : s.inst.wellFormed = true) : s.takeReset.Inv :=
  inv_host_frame (resetFor_inv h) rfl _ _ _

/-! ## Operations of the host -/

theorem respond_inv (h : s.Inv) (hs : s.seq = .idle) (r : Reply) : (s.respond r).Inv :=
  inv_host_frame h hs _ _ _

theorem raise_inv (h : s.Inv) (hs : s.seq = .idle) {e : ErrCode} (he : e ≠ .noError) (info : Reg) :
    (s.raise e info).Inv := by
  obtain ⟨hinst, hmem, hcfg, ⟨-, herr⟩, hbuf, -, hseq⟩ := h
  have hst : (s.raise e info).StatusOk := by
    refine ⟨nofun, ?_⟩
    by_cases h0 : s.err = .noError <;> simp [h0, he]
  exact ⟨hinst, hmem, hcfg, hst, hbuf, busyOk_of_idle hs, hseq⟩

theorem created_inv (h : s.Inv) (hs : s.seq = .idle) {n : BitVec 16} {mode : FoldMode}
    (hl : legalSize s.inst n = true) (hlp : n.toNat ≤ s.inst.lp) :
    (({ s with h := s.h.putAll 0 ((s.inst.p.take n.toNat).map some), n := n, mode := mode,
               wptr := 0 }.clearException).respond .ok).Inv := by
  have hrnd := inv_rnd_of_idle h hs
  obtain ⟨hinst, hmem, -, -, -, -, -⟩ := h
  have hlen : (s.inst.p.take n.toNat).length = n.toNat := List.length_take_of_le hlp
  have hcap : 0 + ((s.inst.p.take n.toNat).map some).length ≤ s.inst.nmax.toNat := by
    obtain ⟨-, -, hn⟩ := legalSize_iff.1 hl
    rw [List.length_map, hlen]
    omega
  have hmem' := memory_wf_putH hmem hcap
  exact ⟨hinst, hmem', .inr hl, ⟨fun _ => ⟨hl, rfl⟩, fun _ => rfl⟩,
    ⟨Nat.zero_le _, Cells.filled_putAll_zero _ hlen, rfl⟩, busyOk_of_idle hs,
    sequenceOk_idle hs hrnd⟩

theorem pushed_inv (h : s.Inv) (hs : s.seq = .idle) (b : Byte) (hn : s.wptr ≠ s.n)
    (hcap : s.wptr.toNat + 1 ≤ s.inst.nmax.toNat) :
    ({ s with b := s.b.putAll s.wptr.toNat [some b], wptr := s.wptr + 1 }.respond .ok).Inv := by
  have hrnd := inv_rnd_of_idle h hs
  obtain ⟨hinst, hmem, hcfg, hst, ⟨hw, hh, hb⟩, -, -⟩ := h
  have hne : s.wptr.toNat ≠ s.n.toNat := fun e => hn (BitVec.eq_of_toNat_eq e)
  have hsucc : (s.wptr + 1).toNat = s.wptr.toNat + 1 := by
    have := s.n.isLt
    rw [BitVec.toNat_add]
    exact Nat.mod_eq_of_lt (by simp; omega)
  have hw' : (s.wptr + 1).toNat ≤ s.n.toNat := by omega
  have hb' : (s.b.putAll s.wptr.toNat [some b]).filled (s.wptr + 1).toNat = true := by
    rw [hsucc]
    exact Cells.filled_putAll_append (xs := [b]) hb (by simp)
  have hmem' := memory_wf_putB (xs := [some b]) hmem hcap
  exact ⟨hinst, hmem', hcfg, hst, ⟨hw', hh, hb'⟩, busyOk_of_idle hs, sequenceOk_idle hs hrnd⟩

theorem started_inv (h : s.Inv) (hs : s.seq = .idle) (hv : s.valid = true) (hw : s.wptr ≠ 0)
    (hp : s.pending.head?.bind (fun w => (readOperation w.words).toOption) = some .absorb) :
    { s with seq := .pad }.Inv := by
  have hrnd := inv_rnd_of_idle h hs
  obtain ⟨hinst, hmem, hcfg, hst, hbuf, -, -⟩ := h
  exact ⟨hinst, hmem, hcfg, hst, hbuf, fun _ => ⟨hv, hw, hp⟩, sequenceOk_pad rfl hrnd⟩

/-- An operation read from the transaction being served keeps the invariant. -/
theorem exec_pending_inv (h : s.Inv) (hs : s.seq = .idle) {w : Transaction}
    {rest : List Transaction} (hp : s.pending = w :: rest) (hi : readOperation w.words = .ok i)
    (he : exec i s = .next t) : t.Inv := by
  obtain ⟨hhost, hwrcmd⟩ := readOperation_words hi
  cases exec_host_effect hhost he with
  | answered r => exact respond_inv h hs r
  | raised e info hne => exact raise_inv h hs hne info
  | created n mode hl hlp => exact created_inv h hs hl hlp
  | pushed b hv hn hcap => exact pushed_inv h hs b hn hcap
  | started hv hw hop =>
    rcases hop with rfl | ⟨c, rfl, hc⟩
    · exact started_inv h hs hv hw (by simp [hp, hi, Except.toOption])
    · obtain ⟨r, hr⟩ := hwrcmd c rfl
      rw [hc] at hr
      cases hr

/-! ## Micro-operations -/

theorem execPad_inv (h : s.Inv) (hs : s.seq = .pad) (he : execPad s = .next t) : t.Inv := by
  have hl := inv_legal_of_busy h (by simp [hs])
  obtain ⟨hinst, hmem, hcfg, hst, ⟨hw, hh, hb⟩, hbusy, hrnd, -⟩ := h
  obtain ⟨hlp, -, rfl⟩ := execPad_next_iff.1 he
  obtain ⟨-, -, hn⟩ := legalSize_iff.1 hl
  have hlen : (s.inst.p.take (s.n.toNat - s.wptr.toNat)).length = s.n.toNat - s.wptr.toNat :=
    List.length_take_of_le hlp
  have hfill : (s.b.putAll s.wptr.toNat
      ((s.inst.p.take (s.n.toNat - s.wptr.toNat)).map some)).filled s.n.toNat = true :=
    Cells.filled_putAll_append hb (by omega)
  have hcap : s.wptr.toNat +
      ((s.inst.p.take (s.n.toNat - s.wptr.toNat)).map some).length ≤ s.inst.nmax.toNat := by
    rw [List.length_map]
    omega
  have hmem' := memory_wf_putB hmem hcap
  exact ⟨hinst, hmem', hcfg, hst, ⟨hw, hh, Cells.filled_mono hfill hw⟩,
    fun _ => hbusy (by simp [hs]), sequenceOk_pack rfl (hrnd (.inr (.inl hs))) hfill⟩

theorem execPack_inv (h : s.Inv) (hs : s.seq = .pack) (he : execPack s = .next t) : t.Inv := by
  obtain ⟨hinst, hmem, hcfg, hst, hbuf, hbusy, -, hfill, -⟩ := h
  obtain ⟨hcap, rfl⟩ := execPack_next_iff.1 he
  have hw : 8 * wordCount s ≤ s.n.toNat := Nat.mul_div_le _ _
  obtain ⟨bytes, -, hbytes⟩ := readCells_zero_of_filled (Cells.filled_mono (hfill hs) hw)
  have ha : (s.a.putAll 0 (packCells (wordCount s) (s.readB 0 (8 * wordCount s)))).filled
      (wordCount s) = true := by
    rw [State.readB, hbytes, packCells_map_some]
    exact Cells.filled_putAll_zero _ (packWords_length _ _)
  have hmem' := memory_wf_putA (lo := 0)
    (xs := packCells (wordCount s) (s.readB 0 (8 * wordCount s))) hmem (by simpa using hcap)
  exact ⟨hinst, hmem', hcfg, hst, hbuf, fun _ => hbusy (by simp [hs]),
    sequenceOk_mix rfl (.head _) ha⟩

theorem execMix_inv (h : s.Inv) (hs : s.seq = .mix) (he : execMix s = .next t) : t.Inv := by
  obtain ⟨hinst, hmem, hcfg, hst, hbuf, hbusy, -, -, hrnd, ha, -⟩ := h
  obtain ⟨hcap, rfl⟩ := execMix_next_iff.1 he
  obtain ⟨words, hlen, hwords⟩ := readCells_zero_of_filled (ha (.inl hs))
  rw [State.readA, hwords, map_optionMap_some]
  generalize hmixed : words.map (fun w => mixword s.inst.num w s.rnd) = mixed
  have hlen' : mixed.length = wordCount s := by simp [← hmixed, hlen]
  have hput : 0 + (mixed.map some).length ≤ s.inst.nmax.toNat / 8 := by
    rw [List.length_map]
    omega
  have hmem' := memory_wf_putP (memory_wf_putA hmem hput) hput
  have hpa : ∀ k, k < wordCount s →
      (s.p.putAll 0 (mixed.map some)).read k = (s.a.putAll 0 (mixed.map some)).read k := by
    intro k hk
    have hr : 0 ≤ k ∧ k < 0 + (mixed.map some).length := by
      rw [List.length_map]
      omega
    rw [Cells.read_putAll, Cells.read_putAll, if_pos hr, if_pos hr]
  exact ⟨hinst, hmem', hcfg, hst, hbuf, fun _ => hbusy (by simp [hs]),
    sequenceOk_diffuse rfl (hrnd (.inl hs)) (Cells.filled_putAll_zero _ hlen') hpa⟩

/-- The round loop of R204: from a round constant RND goes on to the next one, or past the bound to 78. -/
theorem roundConstants_next {r : BitVec 7} (h : r ∈ roundConstants) :
    (r + roundStep ≤ roundBound ∧ r + roundStep ∈ roundConstants) ∨
      (¬ r + roundStep ≤ roundBound ∧ r + roundStep = 78) := by
  revert r
  decide

theorem execDiffuse_inv (h : s.Inv) (hs : s.seq = .diffuse) (he : execDiffuse s = .next t) :
    t.Inv := by
  obtain ⟨hinst, hmem, hcfg, hst, ⟨hw, hh, hb⟩, hbusy, -, -, hrnd, ha, hpa, -⟩ := h
  obtain ⟨hcap, rfl⟩ := execDiffuse_next_iff.1 he
  obtain ⟨words, -, hwords⟩ := readCells_zero_of_filled (ha (.inr (.inl hs)))
  obtain ⟨bytes, hlen, hbytes⟩ := readCells_zero_of_filled hh
  have hnew : (s.readH 0 s.n.toNat).map (diffuseCell (s.readA 0 (wordCount s))) =
      (bytes.map (diffuse words)).map some := by
    simp [State.readH, State.readA, hwords, hbytes, diffuseCell_map_some]
  rw [hnew]
  have hlen' : (bytes.map (diffuse words)).length = s.n.toNat := by simpa using hlen
  have hmem' := memory_wf_putH (lo := 0) (xs := (bytes.map (diffuse words)).map some) hmem
    (by rw [List.length_map]; omega)
  refine ⟨hinst, hmem', hcfg, hst, ⟨hw, Cells.filled_putAll_zero _ hlen', hb⟩,
    fun _ => hbusy (by simp [hs]), ?_⟩
  rcases roundConstants_next (hrnd (.inr hs)) with ⟨hle, hmem⟩ | ⟨hgt, h78⟩
  · exact sequenceOk_mix (if_pos hle) hmem (ha (.inr (.inl hs)))
  · exact sequenceOk_fold (if_neg hgt) h78 (ha (.inr (.inl hs))) (hpa (.inl hs))

/-- FOLD ends the ABSORB: what it leaves in H has to be N values. -/
theorem endAbsorb_inv (h : s.Inv) (hs : s.seq = .fold) {bytes : List Byte}
    (hlen : bytes.length = s.n.toNat) :
    ({ s with h := s.h.putAll 0 (bytes.map some) }.endAbsorb).Inv := by
  have hl := inv_legal_of_busy h (by simp [hs])
  obtain ⟨hinst, hmem, hcfg, hst, -, -, -, -, -, -, -, hrnd⟩ := h
  obtain ⟨-, -, hn⟩ := legalSize_iff.1 hl
  have hmem' := memory_wf_putH (lo := 0) (xs := bytes.map some) hmem
    (by rw [List.length_map]; omega)
  exact ⟨hinst, hmem', hcfg, hst, ⟨Nat.zero_le _, Cells.filled_putAll_zero _ hlen, rfl⟩,
    busyOk_of_idle rfl, sequenceOk_idle rfl (.inr (hrnd hs))⟩

/-- What FOLD reads holds values: N bytes of H, and as many bytes of R. -/
theorem inv_fold_reads (h : s.Inv) (hs : s.seq = .fold) :
    ∃ bytes r : List Byte, bytes.length = s.n.toNat ∧ r.length = s.n.toNat ∧
      s.readH 0 s.n.toNat = bytes.map some ∧
      serialiseCells (s.readP 0 (wordCount s)) = r.map some := by
  have hl := inv_legal_of_busy h (by simp [hs])
  obtain ⟨-, -, -, -, ⟨-, hh, -⟩, -, -, -, -, ha, hpa, -⟩ := h
  obtain ⟨-, hmod, -⟩ := legalSize_iff.1 hl
  have hp : s.p.filled (wordCount s) = true := Cells.filled_iff.2 fun k hk => by
    rw [hpa (.inr hs) k hk]
    exact Cells.filled_iff.1 (ha (.inr (.inr hs))) k hk
  obtain ⟨bytes, hlen, hbytes⟩ := readCells_zero_of_filled hh
  obtain ⟨words, hwlen, hwords⟩ := readCells_zero_of_filled hp
  refine ⟨bytes, serialise words, hlen, ?_, hbytes, ?_⟩
  · rw [serialise_length, hwlen, wordCount]
    omega
  · rw [State.readP, hwords, serialiseCells_map_some]

theorem execFoldE_inv (h : s.Inv) (hs : s.seq = .fold) (he : execFoldE s = .next t) : t.Inv := by
  obtain ⟨bytes, r, hlen, hr, hbytes, hser⟩ := inv_fold_reads h hs
  obtain ⟨-, rfl⟩ := execFoldE_next_iff.1 he
  rw [hbytes, hser, foldElementwiseCells_map_some]
  exact endAbsorb_inv h hs (by simp [foldElementwise, hlen, hr])

theorem execFoldX_inv (h : s.Inv) (hs : s.seq = .fold) (he : execFoldX s = .next t) : t.Inv := by
  obtain ⟨bytes, r, hlen, -, hbytes, hser⟩ := inv_fold_reads h hs
  obtain ⟨-, rfl⟩ := execFoldX_next_iff.1 he
  rw [hbytes, hser, foldCrossCells_map_some]
  exact endAbsorb_inv h hs (by simp [foldCross, hlen])

/-- The micro-operation SEQ selects keeps the invariant. -/
theorem exec_microOp_inv (h : s.Inv) (hs : s.seq ≠ .idle)
    (he : exec (microOp s.mode s.seq) s = .next t) : t.Inv := by
  cases hq : s.seq with
  | idle => exact absurd hq hs
  | pad => exact execPad_inv h hq (by rwa [hq] at he)
  | pack => exact execPack_inv h hq (by rwa [hq] at he)
  | mix => exact execMix_inv h hq (by rwa [hq] at he)
  | diffuse => exact execDiffuse_inv h hq (by rwa [hq] at he)
  | fold =>
    cases hm : s.mode with
    | elementwise => exact execFoldE_inv h hq (by rwa [hq, hm] at he)
    | cross => exact execFoldX_inv h hq (by rwa [hq, hm] at he)

/-! ## The step -/

theorem stepRun_inv (h : s.Inv) (he : stepRun s = .next t) : t.Inv := by
  by_cases hs : s.seq = .idle
  · cases hp : s.pending with
    | nil =>
      rw [stepRun_of_fetch (fetch_quiet hs hp)] at he
      cases he
      exact h
    | cons w rest =>
      have hf := fetch_pending hs hp
      cases hi : readOperation w.words with
      | ok i => exact exec_pending_inv h hs hp hi (stepRun_of_fetch (hf.trans hi) ▸ he)
      | error r =>
        rw [stepRun_of_reject (hf.trans hi)] at he
        cases he
        exact respond_inv h hs _
  · exact exec_microOp_inv h hs (stepRun_of_fetch (fetch_busy hs) ▸ he)

/-- Settles O31: the reset event establishes the invariant anew, and the operation fetched, one of the
host's with SEQ idle and the micro-operation of SEQ otherwise, keeps it. -/
theorem stepKeepsTheInvariant : Obligations.StepKeepsTheInvariant := by
  intro s t h he
  rcases step_cases s with ⟨rest, -, hr⟩ | ⟨-, hr⟩ <;> rw [hr] at he
  · cases he
    obtain ⟨hinst, -⟩ := h
    exact takeReset_inv hinst
  · have hi : { s with resetLine := s.resetLine.tail }.Inv := h
    exact stepRun_inv hi he

end Sys2Proof.Machine

/-! SUPPORT. The registers of 10_state.md: the numbers their layouts give, and that reading one answers
that number and nothing else happens. -/

namespace Sys2Proof.Machine

variable {s : State}

/-! ## Layouts -/

/-- Fields side by side in a word add up, each at the weight of its place. -/
theorem toNat_append_eq_add {m n : Nat} (x : BitVec m) (y : BitVec n) :
    (x ++ y).toNat = x.toNat * 2 ^ n + y.toNat := by
  rw [BitVec.toNat_append, ← Nat.shiftLeft_add_eq_or_of_lt y.isLt, Nat.shiftLeft_eq]

theorem statusWord_toNat (s : State) :
    (statusWord s).toNat = s.valid.toNat + 16 * s.err.code.toNat := by
  simp only [statusWord, toNat_append_eq_add, BitVec.toNat_ofBool, BitVec.ofNat_eq_ofNat,
    BitVec.toNat_ofNat]
  omega

theorem cfgWord_toNat (s : State) :
    (cfgWord s).toNat = s.n.toNat + 65536 * (foldModeBit s.mode).toNat := by
  simp only [cfgWord, toNat_append_eq_add, BitVec.ofNat_eq_ofNat, BitVec.toNat_ofNat]
  omega

/-- CAP and FILL: a 16-bit field below sixteen reserved bits. -/
theorem toNat_reserved_append (x : BitVec 16) : ((0 : BitVec 16) ++ x).toNat = x.toNat := by
  rw [toNat_append_eq_add]
  simp

/-- Settles O19: each read answers its register's word and completes, and the word's fields add up to the
number the layout gives. -/
theorem registerReadsReturnTheLayouts : Obligations.RegisterReadsReturnTheLayouts := by
  intro s
  refine ⟨⟨statusWord s, rfl, ?_⟩, ⟨cfgWord s, rfl, ?_⟩, ⟨capWord s, rfl, ?_⟩, ⟨fillWord s, rfl, ?_⟩,
    rfl⟩
  · rw [statusWord_toNat]
    cases s.valid <;> cases s.err <;> rfl
  · rw [cfgWord_toNat]
    cases s.mode <;> rfl
  · exact toNat_reserved_append s.inst.nmax
  · exact toNat_reserved_append s.wptr

end Sys2Proof.Machine

/-! SUPPORT. The parameters of the reference machine are legal (R7, R24), and its state after reset has the
invariant. -/

namespace Sys2Proof.Machine

theorem digitBytes_length (count n : Nat) : (digitBytes count n).length = count := by
  induction count with
  | zero => rfl
  | succ count ih => simp [digitBytes, ih]

/-- Every byte of P is an ASCII decimal digit, whatever number its digits are (R7). -/
theorem digitBytes_digit {count n : Nat} {x : Byte} (h : x ∈ digitBytes count n) :
    0x30 ≤ x.toNat ∧ x.toNat ≤ 0x39 := by
  induction count with
  | zero => cases h
  | succ count ih =>
    rcases List.mem_cons.1 h with rfl | h
    · rw [BitVec.toNat_ofNat]
      omega
    · exact ih h

theorem referenceInstance_wellFormed : referenceInstance.wellFormed = true := by
  have hlp : referenceInstance.lp = 1024 := digitBytes_length 1024 piDigits
  have hdigits : ∀ x ∈ referenceInstance.p, 0x30 ≤ x.toNat ∧ x.toNat ≤ 0x39 :=
    fun _ hx => digitBytes_digit hx
  have hnmax : referenceInstance.nmax.toNat = 1024 := rfl
  simpa [Config.Instance.wellFormed, hlp, hnmax] using hdigits

/-- Settles O32: what reset leaves with legal parameters has the invariant, and the reference ones are
legal. -/
theorem resetHasTheInvariant : Obligations.ResetHasTheInvariant :=
  ⟨fun _ => resetFor_inv, rfl, resetFor_inv referenceInstance_wellFormed⟩

end Sys2Proof.Machine

/-! SUPPORT. Which operations write H and CFG: everything an operation can do to the two, once. -/

namespace Sys2Proof.Machine

variable {s t : State} {i : Instr}

/-- The instruction is a CREATE of the two operands, or the WRCMD of its word (R86). -/
abbrev DeliversCreate (i : Instr) (n : BitVec 16) (mode : FoldMode) : Prop :=
  i = .create n mode ∨ i = .wrcmd (createWord n mode)

/-- H, N and MODE are as they were: what a session is made of besides its flags (R20, R31). -/
abbrev SessionDataKept (s t : State) : Prop := t.h = s.h ∧ t.n = s.n ∧ t.mode = s.mode

theorem foldModeBit_foldModeOfBit (m : Bool) : foldModeBit (foldModeOfBit m) = BitVec.ofBool m := by
  cases m <;> rfl

/-- The fields OPC, Z, M and IMM make up a command word (R81). -/
theorem command_fields_append (w : Reg) :
    w.extractLsb' 24 8 ++ w.extractLsb' 17 7 ++ w.extractLsb' 16 1 ++ w.extractLsb' 0 16 = w := by
  rw [BitVec.extractLsb'_append_extractLsb'_eq_extractLsb' (rfl : 24 = 17 + 7),
    BitVec.extractLsb'_append_extractLsb'_eq_extractLsb' (rfl : 17 = 16 + 1),
    BitVec.extractLsb'_append_extractLsb'_eq_extractLsb' (rfl : 16 = 0 + 16)]
  exact BitVec.extractLsb'_eq_self

/-- A command word is the one that CREATE's encoding gives to the operands decoded from it (R82). -/
theorem eq_createWord_of_decodeCommand {w : Reg} {n : BitVec 16} {mode : FoldMode}
    (h : decodeCommand w = .ok (.create n mode)) : w = createWord n mode := by
  unfold decodeCommand at h
  split_ifs at h with hw
  · obtain ⟨hopc, hz⟩ := hw
    cases h
    have hm : foldModeBit (foldModeOfBit (w.getLsbD 16)) = w.extractLsb' 16 1 := by
      rw [foldModeBit_foldModeOfBit]
      ext k hk
      simp [show k = 0 by omega]
    rw [createWord, hm, ← hz, ← hopc, command_fields_append]
  · cases h

theorem execCreate_cases {n : BitVec 16} {mode : FoldMode} (h : execCreate n mode s = .next t) :
    (legalSize s.inst n = true ∧ t.n = n ∧ t.mode = mode) ∨ SessionDataKept s t := by
  cases hl : legalSize s.inst n with
  | true =>
    obtain ⟨-, -, rfl⟩ := (execCreate_legal_next_iff hl).1 h
    exact .inl ⟨rfl, rfl, rfl⟩
  | false =>
    rw [execCreate_illegal hl] at h
    cases h
    exact .inr ⟨rfl, rfl, rfl⟩

theorem execAbsorb_sessionData (h : execAbsorb s = .next t) : SessionDataKept s t := by
  unfold execAbsorb at h
  split_ifs at h <;> cases h <;> exact ⟨rfl, rfl, rfl⟩

theorem execPush_sessionData {b : Byte} (h : execPush b s = .next t) : SessionDataKept s t := by
  unfold execPush at h
  split_ifs at h
  · cases h
    exact ⟨rfl, rfl, rfl⟩
  · cases h
    exact ⟨rfl, rfl, rfl⟩
  · simp only [finish_next_iff, bind_ok_iff, State.writeB_ok_iff, pure_ok_iff] at h
    obtain ⟨_, ⟨-, rfl⟩, rfl⟩ := h
    exact ⟨rfl, rfl, rfl⟩

theorem execRdh_sessionData {k : BitVec 12} (h : execRdh k s = .next t) : SessionDataKept s t := by
  unfold execRdh at h
  split_ifs at h
  · cases h
    exact ⟨rfl, rfl, rfl⟩
  · split at h <;> cases h <;> exact ⟨rfl, rfl, rfl⟩

/-- Everything an operation can do to H and CFG: a CREATE of a legal size, directly or by WRCMD, writes
both, DIFFUSE and FOLD write H, every other operation neither (R20, R31). -/
theorem exec_sessionData_cases (h : exec i s = .next t) :
    (∃ n mode, DeliversCreate i n mode ∧ legalSize s.inst n = true ∧ t.n = n ∧ t.mode = mode) ∨
    ((i = .diffuse ∨ i = .foldE ∨ i = .foldX) ∧ t.n = s.n ∧ t.mode = s.mode) ∨
    SessionDataKept s t := by
  cases i with
  | create n mode =>
    rcases execCreate_cases h with hc | hk
    · exact .inl ⟨n, mode, .inl rfl, hc⟩
    · exact .inr (.inr hk)
  | wrcmd w =>
    have hx : execWrcmd w s = .next t := h
    rcases decodeCommand_cases w with ⟨n, mode, hw⟩ | hw | hw
    · rcases execCreate_cases (execWrcmd_create hw ▸ hx) with hc | hk
      · exact .inl ⟨n, mode, .inr (congrArg _ (eq_createWord_of_decodeCommand hw)), hc⟩
      · exact .inr (.inr hk)
    · exact .inr (.inr (execAbsorb_sessionData (execWrcmd_absorb hw ▸ hx)))
    · cases (execWrcmd_illegal hw).symm.trans hx
      exact .inr (.inr ⟨rfl, rfl, rfl⟩)
  | diffuse =>
    obtain ⟨-, rfl⟩ := execDiffuse_next_iff.1 h
    exact .inr (.inl ⟨.inl rfl, rfl, rfl⟩)
  | foldE =>
    obtain ⟨-, rfl⟩ := execFoldE_next_iff.1 h
    exact .inr (.inl ⟨.inr (.inl rfl), rfl, rfl⟩)
  | foldX =>
    obtain ⟨-, rfl⟩ := execFoldX_next_iff.1 h
    exact .inr (.inl ⟨.inr (.inr rfl), rfl, rfl⟩)
  | absorb => exact .inr (.inr (execAbsorb_sessionData h))
  | push b => exact .inr (.inr (execPush_sessionData h))
  | rdh k => exact .inr (.inr (execRdh_sessionData h))
  | rdstatus | rdcfg | rdcap | rdfill | rderrinfo | idle =>
    cases h
    exact .inr (.inr ⟨rfl, rfl, rfl⟩)
  | pad =>
    obtain ⟨-, -, rfl⟩ := execPad_next_iff.1 h
    exact .inr (.inr ⟨rfl, rfl, rfl⟩)
  | pack =>
    obtain ⟨-, rfl⟩ := execPack_next_iff.1 h
    exact .inr (.inr ⟨rfl, rfl, rfl⟩)
  | mix =>
    obtain ⟨-, rfl⟩ := execMix_next_iff.1 h
    exact .inr (.inr ⟨rfl, rfl, rfl⟩)

/-- Settles O40: of the three things an operation can do to H and CFG, the premises exclude the two that
write H. -/
theorem digestStateWrittenOnlyByCreateDiffuseFold :
    Obligations.DigestStateWrittenOnlyByCreateDiffuseFold := by
  intro i s t h hcreate hdiffuse hfoldE hfoldX
  rcases exec_sessionData_cases h with ⟨n, mode, hc | hc, -⟩ | ⟨hw, -⟩ | ⟨hh, -⟩
  · exact absurd hc (hcreate n mode).1
  · exact absurd hc (hcreate n mode).2
  · rcases hw with hw | hw | hw
    · exact absurd hw hdiffuse
    · exact absurd hw hfoldE
    · exact absurd hw hfoldX
  · exact hh

/-- Settles O41: CFG changes only where a CREATE of a legal size writes it. -/
theorem configWrittenOnlyByCreate : Obligations.ConfigWrittenOnlyByCreate := by
  intro i s t h
  rcases exec_sessionData_cases h with ⟨n, mode, hi, hl, hn, hm⟩ | ⟨-, hcfg⟩ | ⟨-, hcfg⟩
  · exact .inr ⟨n, mode, hl, hn, hm, hi⟩
  · exact .inl hcfg
  · exact .inl hcfg

end Sys2Proof.Machine

/-! SUPPORT. In a state with the invariant the cells an operation reads hold values. -/

namespace Sys2Proof.Machine

variable {s : State} {i : Instr}

/-- What is fetched is an operation of the host, or the micro-operation that SEQ selects (R201, R207). -/
theorem fetch_cases (h : fetch s = .ok i) : i.fromHost = true ∨ i = microOp s.mode s.seq := by
  by_cases hs : s.seq = .idle
  · cases hp : s.pending with
    | nil =>
      cases (fetch_quiet hs hp).symm.trans h
      exact .inr (by rw [hs]; rfl)
    | cons w rest =>
      rw [fetch_pending hs hp] at h
      exact .inl (readOperation_words h).1
  · cases (fetch_busy hs).symm.trans h
    exact .inr rfl

theorem inv_b_filled (h : s.Inv) (hs : s.seq = .pack) : s.b.filled (8 * wordCount s) = true := by
  obtain ⟨-, -, -, -, -, -, -, hb, -⟩ := h
  exact Cells.filled_mono (hb hs) (Nat.mul_div_le _ _)

theorem inv_a_filled (h : s.Inv) (hs : s.seq = .mix ∨ s.seq = .diffuse ∨ s.seq = .fold) :
    s.a.filled (wordCount s) = true := by
  obtain ⟨-, -, -, -, -, -, -, -, -, ha, -⟩ := h
  exact ha hs

/-- After MIX p holds what a holds (R27). -/
theorem inv_p_filled (h : s.Inv) (hs : s.seq = .diffuse ∨ s.seq = .fold) :
    s.p.filled (wordCount s) = true := by
  have ha := inv_a_filled h (.inr hs)
  obtain ⟨-, -, -, -, -, -, -, -, -, -, hpa, -⟩ := h
  refine Cells.filled_iff.2 fun k hk => ?_
  rw [hpa hs k hk]
  exact Cells.filled_iff.1 ha k hk

theorem inv_h_filled (h : s.Inv) : s.h.filled s.n.toNat = true := by
  obtain ⟨-, -, -, -, ⟨-, hh, -⟩, -⟩ := h
  exact hh

/-- A micro-operation other than IDLE is fetched only while SEQ is at its own state (R37, R87). -/
theorem seq_of_fetch (h : fetch s = .ok i) :
    (i = .pack → s.seq = .pack) ∧ (i = .mix → s.seq = .mix) ∧ (i = .diffuse → s.seq = .diffuse) ∧
      (i = .foldE ∨ i = .foldX → s.seq = .fold) := by
  rcases fetch_cases h with hi | rfl
  · refine ⟨?_, ?_, ?_, ?_⟩
    · rintro rfl; cases hi
    · rintro rfl; cases hi
    · rintro rfl; cases hi
    · rintro (rfl | rfl) <;> cases hi
  · cases s.mode <;> cases s.seq <;> simp [microOp]

/-- Settles O54: a micro-operation is fetched at its own SEQ, where the invariant has the files it reads
filled, and H[0, N) is filled always. -/
theorem noRuleReadsACellWithoutValue : Obligations.NoRuleReadsACellWithoutValue := by
  intro s i h _ hf
  obtain ⟨hpack, hmix, hdiffuse, hfold⟩ := seq_of_fetch hf
  refine ⟨fun hi => inv_b_filled h (hpack hi), ?_, fun hi => inv_p_filled h (.inr (hfold hi)),
    fun _ => inv_h_filled h, fun k _ _ hk => Cells.filled_iff.1 (inv_h_filled h) _ hk⟩
  rintro (hi | hi)
  · exact inv_a_filled h (.inl (hmix hi))
  · exact inv_a_filled h (.inr (.inl (hdiffuse hi)))

end Sys2Proof.Machine

/-! SUPPORT. Cells without a value (R21, R252; log 3): where the datapath's results hold none, then the
same for each micro-operation. -/

namespace Sys2Proof.Machine

variable {s : State}

/-! ## Ranges of cells -/

/-- A write from index 0 on: the cells written read as what was put there. -/
theorem Cells.read_putAll_zero {α : Type} (c : Cells α) {xs : List (Option α)} {k : Nat}
    (h : k < xs.length) : (c.putAll 0 xs).read k = xs[k]?.join := by
  simpa using Cells.read_putAll_inside c 0 xs k h

theorem readCells_getElem?_zero {α : Type} (c : Cells α) {n k : Nat} (h : k < n) :
    (readCells c 0 n)[k]? = some (c.read k) := by
  rw [readCells_getElem?, if_pos h, Nat.zero_add]

theorem none_mem_readCells_iff {α : Type} {c : Cells α} {lo n : Nat} :
    none ∈ readCells c lo n ↔ ∃ k, k < n ∧ c.read (lo + k) = none := by
  simp [readCells]

/-- A range read within a range read. -/
theorem readCells_drop_take {α : Type} (c : Cells α) {lo n i j : Nat} (h : i + j ≤ n) :
    ((readCells c lo n).drop i).take j = readCells c (lo + i) j := by
  refine List.ext_getElem? fun k => ?_
  rw [List.getElem?_take, List.getElem?_drop, readCells_getElem?, readCells_getElem?]
  by_cases hk : k < j
  · rw [if_pos hk, if_pos hk, if_pos (by omega), Nat.add_assoc]
  · rw [if_neg hk, if_neg hk]

/-! ## The datapath -/

theorem packGroupCells_eq_none_iff {xs : List (Option Byte)} :
    packGroupCells xs = none ↔ none ∈ xs := by
  induction xs with
  | nil => simp [packGroupCells]
  | cons x xs ih => rw [packGroupCells, Option.map₂_eq_none_iff, ih, List.mem_cons, eq_comm]

theorem packCells_getElem? {w k : Nat} (bytes : List (Option Byte)) (h : k < w) :
    (packCells w bytes)[k]? = some (packGroupCells ((bytes.drop (8 * k)).take 8)) := by
  induction w generalizing k bytes with
  | zero => cases h
  | succ w ih =>
    cases k with
    | zero => simp [packCells]
    | succ k =>
      rw [packCells, List.getElem?_cons_succ, ih _ (by omega), List.drop_drop,
        show 8 + 8 * k = 8 * (k + 1) by omega]

theorem diffuseCell_eq_none_iff {words : List (Option Word)} {x : Option Byte} :
    diffuseCell words x = none ↔ x = none ∨ none ∈ words := by
  induction words generalizing x with
  | nil => simp [diffuseCell]
  | cons w words ih =>
    rw [diffuseCell, List.foldl_cons, ← diffuseCell, ih, Option.map₂_eq_none_iff, List.mem_cons,
      or_assoc, eq_comm (a := w)]

/-- Byte i of R is byte i mod 8 of word i / 8 (R160). -/
theorem serialiseCells_getElem? (words : List (Option Word)) (i : Nat) :
    (serialiseCells words)[i]? =
      words[i / 8]?.map (Option.map fun (x : Word) => lowByte (x >>> (8 * (i % 8)))) := by
  induction words generalizing i with
  | nil => rfl
  | cons w words ih =>
    rw [serialiseCells, List.flatMap_cons, ← serialiseCells, List.getElem?_append]
    by_cases hi : i < 8
    · have hdiv : i / 8 = 0 := by omega
      have hmod : i % 8 = i := by omega
      simp [hi, hdiv, hmod]
    · obtain ⟨j, rfl⟩ : ∃ j, i = j + 8 := ⟨i - 8, by omega⟩
      have hdiv : (j + 8) / 8 = j / 8 + 1 := by omega
      simp [hdiv, ih]

theorem serialiseCells_getElem?_eq_some_none_iff {words : List (Option Word)} {i : Nat} :
    (serialiseCells words)[i]? = some none ↔ words[i / 8]? = some none := by
  rw [serialiseCells_getElem?]
  cases words[i / 8]? <;> simp

/-- The bytes added by the cross fold are all but the one of its own index (R162). -/
theorem crossFrom_eq_none_iff {add : Byte → Byte → Byte} {i : Nat} {r : List (Option Byte)} :
    ∀ {j : Nat} {x : Option Byte}, crossFrom (Option.map₂ add) i j r x = none ↔
      x = none ∨ ∃ k, j + k ≠ i ∧ r[k]? = some none := by
  induction r with
  | nil => intro j x; simp [crossFrom]
  | cons y r ih =>
    intro j x
    have hsplit : (∃ k, j + k ≠ i ∧ (y :: r)[k]? = some none) ↔
        (j ≠ i ∧ y = none) ∨ ∃ k, j + 1 + k ≠ i ∧ r[k]? = some none := by
      constructor
      · rintro ⟨_ | k, hne, hk⟩
        · exact .inl ⟨hne, by simpa using hk⟩
        · exact .inr ⟨k, by omega, by simpa using hk⟩
      · rintro (⟨hne, rfl⟩ | ⟨k, hne, hk⟩)
        · exact ⟨0, hne, rfl⟩
        · exact ⟨k + 1, by omega, by simpa using hk⟩
    rw [crossFrom, ih, hsplit]
    by_cases hj : j = i
    · simp [hj]
    · simp [hj, or_assoc]

/-! ## What the micro-operations leave in the cells they write -/

theorem read_pack {k : Nat} (hk : k < wordCount s) :
    (s.a.putAll 0 (packCells (wordCount s) (s.readB 0 (8 * wordCount s)))).read k =
      packGroupCells (readCells s.b (8 * k) 8) := by
  rw [Cells.read_putAll_zero _ (by simpa using hk), packCells_getElem? _ hk, State.readB,
    readCells_drop_take _ (by omega), Nat.zero_add, Option.join_some]

/-- MIX puts the same words in a and in p (R121). -/
theorem read_mix (c : Cells Word) (f : Word → Word) {k : Nat} (hk : k < wordCount s) :
    (c.putAll 0 ((s.readA 0 (wordCount s)).map (Option.map f))).read k = (s.a.read k).map f := by
  rw [Cells.read_putAll_zero _ (by simpa using hk), List.getElem?_map, State.readA,
    readCells_getElem?_zero _ hk, Option.map_some, Option.join_some]

theorem read_diffuse {i : Nat} (hi : i < s.n.toNat) :
    (s.h.putAll 0 ((s.readH 0 s.n.toNat).map (diffuseCell (s.readA 0 (wordCount s))))).read i =
      diffuseCell (s.readA 0 (wordCount s)) (s.h.read i) := by
  rw [Cells.read_putAll_zero _ (by simpa using hi), List.getElem?_map, State.readH,
    readCells_getElem?_zero _ hi, Option.map_some, Option.join_some]

/-- R, as the cells of p give it. -/
abbrev State.roundOutput (s : State) : List (Option Byte) :=
  serialiseCells (s.readP 0 (wordCount s))

theorem roundOutput_getElem?_eq_some_none_iff {i : Nat} :
    s.roundOutput[i]? = some none ↔ i / 8 < wordCount s ∧ s.p.read (i / 8) = none := by
  rw [State.roundOutput, serialiseCells_getElem?_eq_some_none_iff, State.readP, readCells_getElem?]
  split <;> simp_all

theorem read_foldE (h8 : s.n.toNat % 8 = 0) {i : Nat} (hi : i < s.n.toNat) :
    (s.h.putAll 0 (foldElementwiseCells (s.readH 0 s.n.toNat) s.roundOutput)).read i = none ↔
      s.h.read i = none ∨ s.p.read (i / 8) = none := by
  have hw : 8 * wordCount s = s.n.toNat := by rw [wordCount]; omega
  have hr : i < s.roundOutput.length := by simpa [hw] using hi
  have hk : i / 8 < wordCount s := by omega
  have hread : (s.h.putAll 0 (foldElementwiseCells (s.readH 0 s.n.toNat) s.roundOutput)).read i =
      Option.map₂ (fun x y => x ^^^ y) (s.h.read i) s.roundOutput[i] := by
    rw [Cells.read_putAll_zero _ (by simpa [hw] using hi), foldElementwiseCells,
      List.getElem?_zipWith, State.readH, readCells_getElem?_zero _ hi,
      List.getElem?_eq_getElem hr]
    rfl
  have hbyte : s.roundOutput[i] = none ↔ s.p.read (i / 8) = none := by
    have hcell := roundOutput_getElem?_eq_some_none_iff (s := s) (i := i)
    rwa [List.getElem?_eq_getElem hr, Option.some_inj, and_iff_right hk] at hcell
  rw [hread, Option.map₂_eq_none_iff, hbyte]

theorem read_foldX {i : Nat} (hi : i < s.n.toNat) :
    (s.h.putAll 0 (foldCrossCells (s.readH 0 s.n.toNat) s.roundOutput)).read i =
      crossFrom (Option.map₂ fun x y => x ^^^ y) i 0 s.roundOutput (s.h.read i) := by
  rw [Cells.read_putAll_zero _ (by simpa using hi), foldCrossCells, List.getElem?_mapIdx,
    State.readH, readCells_getElem?_zero _ hi, Option.map_some, Option.join_some]

/-! ## The micro-operations on cells without a value -/

theorem exec_pack_without_value (hn : s.n.toNat ≤ s.inst.nmax.toNat) :
    ∃ t, exec .pack s = .next t ∧
      (∀ k, k < wordCount s →
        (t.a.read k = none ↔ ∃ m, m < 8 ∧ s.b.read (8 * k + m) = none)) ∧
      (∀ k, wordCount s ≤ k → t.a.read k = s.a.read k) ∧
      t = { s with a := t.a, rnd := 13, seq := .mix } := by
  refine ⟨_, execPack_next_iff.2 ⟨Nat.div_le_div_right hn, rfl⟩, fun k hk => ?_, fun k hk => ?_, rfl⟩
  · rw [read_pack hk, packGroupCells_eq_none_iff, none_mem_readCells_iff]
  · exact Cells.read_putAll_outside _ _ _ _ (.inr (by simpa using hk))

theorem exec_mix_without_value (hn : s.n.toNat ≤ s.inst.nmax.toNat) :
    ∃ t, exec .mix s = .next t ∧
      (∀ k, k < wordCount s →
        (t.a.read k = none ↔ s.a.read k = none) ∧ (t.p.read k = none ↔ s.a.read k = none)) ∧
      (∀ k, wordCount s ≤ k → t.a.read k = s.a.read k ∧ t.p.read k = s.p.read k) ∧
      t = { s with a := t.a, p := t.p, seq := .diffuse } := by
  refine ⟨_, execMix_next_iff.2 ⟨Nat.div_le_div_right hn, rfl⟩, fun k hk => ?_, fun k hk => ?_, rfl⟩
  · rw [read_mix _ _ hk, read_mix _ _ hk, Option.map_eq_none_iff]
    exact ⟨Iff.rfl, Iff.rfl⟩
  · exact ⟨Cells.read_putAll_outside _ _ _ _ (.inr (by simpa using hk)),
      Cells.read_putAll_outside _ _ _ _ (.inr (by simpa using hk))⟩

theorem exec_diffuse_without_value (hn : s.n.toNat ≤ s.inst.nmax.toNat) :
    ∃ t, exec .diffuse s = .next t ∧
      (∀ i, i < s.n.toNat →
        (t.h.read i = none ↔ s.h.read i = none ∨ ∃ k, k < wordCount s ∧ s.a.read k = none)) ∧
      (∀ i, s.n.toNat ≤ i → t.h.read i = s.h.read i) ∧
      t = { s with
        h := t.h, rnd := s.rnd + 13, seq := if s.rnd + 13 ≤ 75 then .mix else .fold } := by
  refine ⟨_, execDiffuse_next_iff.2 ⟨hn, rfl⟩, fun i hi => ?_, fun i hi => ?_, rfl⟩
  · rw [read_diffuse hi, diffuseCell_eq_none_iff, State.readA, none_mem_readCells_iff]
    simp only [Nat.zero_add]
  · exact Cells.read_putAll_outside _ _ _ _ (.inr (by simpa using hi))

theorem exec_foldE_without_value (hn : s.n.toNat ≤ s.inst.nmax.toNat) (h8 : s.n.toNat % 8 = 0) :
    ∃ t, exec .foldE s = .next t ∧
      (∀ i, i < s.n.toNat →
        (t.h.read i = none ↔ s.h.read i = none ∨ s.p.read (i / 8) = none)) ∧
      (∀ i, s.n.toNat ≤ i → t.h.read i = s.h.read i) ∧
      t = { s with
        h := t.h, wptr := 0, seq := .idle, pending := s.pending.tail,
        replies := .ok :: s.replies } := by
  have hw : 8 * wordCount s ≤ s.n.toNat := Nat.mul_div_le _ _
  refine ⟨_, execFoldE_next_iff.2 ⟨hw.trans hn, rfl⟩, fun i hi => read_foldE h8 hi,
    fun i hi => ?_, rfl⟩
  refine Cells.read_putAll_outside _ _ _ _ (.inr ?_)
  simp only [foldElementwiseCells_length, State.readH_length]
  omega

theorem exec_foldX_without_value (hn : s.n.toNat ≤ s.inst.nmax.toNat) (h8 : s.n.toNat % 8 = 0) :
    ∃ t, exec .foldX s = .next t ∧
      (∀ i, i < s.n.toNat → (t.h.read i = none ↔
        s.h.read i = none ∨ ∃ j, j < s.n.toNat ∧ j ≠ i ∧ s.p.read (j / 8) = none)) ∧
      (∀ i, s.n.toNat ≤ i → t.h.read i = s.h.read i) ∧
      t = { s with
        h := t.h, wptr := 0, seq := .idle, pending := s.pending.tail,
        replies := .ok :: s.replies } := by
  refine ⟨_, execFoldX_next_iff.2 ⟨hn, rfl⟩, fun i hi => ?_, fun i hi => ?_, rfl⟩
  · have hw (j : Nat) : j / 8 < wordCount s ↔ j < s.n.toNat := by rw [wordCount]; omega
    rw [State.endAbsorb_h, read_foldX hi, crossFrom_eq_none_iff]
    simp only [Nat.zero_add, roundOutput_getElem?_eq_some_none_iff, hw, and_left_comm]
  · exact Cells.read_putAll_outside _ _ _ _ (.inr (by simpa using hi))

/-- Settles O30: each micro-operation completes, since N is within the files, and each of its results holds
no value exactly where one it is computed from holds none; RDH of such a cell is answered without data. -/
theorem cellsWithoutValuePropagate : Obligations.CellsWithoutValuePropagate := by
  intro s hn
  refine ⟨exec_pack_without_value hn, exec_mix_without_value hn, exec_diffuse_without_value hn,
    exec_foldE_without_value hn, exec_foldX_without_value hn, fun i hv hi hnone => ?_⟩
  have hx : exec (.rdh i) s = execRdh i s := rfl
  rw [hx, execRdh, if_neg (by simp [hv, hi]), hnone]
  rfl

end Sys2Proof.Machine

/-! SUPPORT. No operation stops in a state with the invariant: every index it writes or reads is one of its
file (R50). -/

namespace Sys2Proof.Machine

variable {s : State}

/-! ## Sizes -/

theorem nmax_bounds_of_wellFormed {inst : Config.Instance} (h : inst.wellFormed = true) :
    inst.nmax.toNat ≤ 4096 ∧ inst.nmax.toNat ≤ inst.lp := by
  simp only [Config.Instance.wellFormed, Bool.and_eq_true, decide_eq_true_eq] at h
  obtain ⟨⟨⟨⟨-, h4096⟩, -⟩, hlp⟩, -⟩ := h
  exact ⟨h4096, hlp⟩

theorem inv_nmax_bounds (h : s.Inv) : s.inst.nmax.toNat ≤ 4096 ∧ s.inst.nmax.toNat ≤ s.inst.lp := by
  obtain ⟨hinst, -⟩ := h
  exact nmax_bounds_of_wellFormed hinst

/-- CFG.N is within H and B, also before the first CREATE, where it is 0 (R31). -/
theorem inv_n_le_nmax (h : s.Inv) : s.n.toNat ≤ s.inst.nmax.toNat := by
  obtain ⟨-, -, hcfg, -⟩ := h
  rcases hcfg with h0 | hl
  · simp [h0]
  · obtain ⟨-, -, hn⟩ := legalSize_iff.1 hl
    exact hn

theorem inv_wptr_le_n (h : s.Inv) : s.wptr.toNat ≤ s.n.toNat := by
  obtain ⟨-, -, -, -, ⟨hw, -⟩, -⟩ := h
  exact hw

/-! ## The operations that reach a register file -/

/-- CREATE of a size it accepts finds P long enough and H large enough (R7, R170). -/
theorem execCreate_answers (h : s.Inv) (n : BitVec 16) (mode : FoldMode) :
    ∃ t, execCreate n mode s = .next t := by
  cases hl : legalSize s.inst n with
  | true =>
    obtain ⟨-, hlp⟩ := inv_nmax_bounds h
    obtain ⟨-, -, hn⟩ := legalSize_iff.1 hl
    have hlen : (s.inst.p.take n.toNat).length = n.toNat := List.length_take_of_le (hn.trans hlp)
    exact ⟨_, (execCreate_legal_next_iff hl).2 ⟨hn.trans hlp, .inr (by omega), rfl⟩⟩
  | false => exact ⟨_, execCreate_illegal hl⟩

theorem execAbsorb_answers (s : State) : ∃ t, execAbsorb s = .next t := by
  unfold execAbsorb
  split_ifs
  · exact ⟨_, rfl⟩
  · exact ⟨_, rfl⟩
  · exact ⟨_, rfl⟩

theorem execWrcmd_answers (h : s.Inv) (w : Reg) : ∃ t, execWrcmd w s = .next t := by
  rcases decodeCommand_cases w with ⟨n, mode, hw⟩ | hw | hw
  · rw [execWrcmd_create hw]
    exact execCreate_answers h n mode
  · rw [execWrcmd_absorb hw]
    exact execAbsorb_answers s
  · exact ⟨_, execWrcmd_illegal hw⟩

/-- A PUSH that stores has WPTR < N, so B has the cell (R30, R172). -/
theorem execPush_answers (h : s.Inv) (b : Byte) : ∃ t, execPush b s = .next t := by
  by_cases hv : s.valid = true
  · by_cases hn : s.wptr = s.n
    · exact ⟨s.raise .overflow (b.setWidth 32), by simp [execPush, hv, hn]⟩
    · have hne : s.wptr.toNat ≠ s.n.toNat := fun e => hn (BitVec.eq_of_toNat_eq e)
      have hw := inv_wptr_le_n h
      have hcap := inv_n_le_nmax h
      exact ⟨_, (execPush_accepted_next_iff hv hn).2 ⟨by omega, rfl⟩⟩
  · exact ⟨s.raise .noSession (b.setWidth 32), by simp [execPush, hv]⟩

theorem execRdh_answers (k : BitVec 12) (s : State) : ∃ t, execRdh k s = .next t := by
  unfold execRdh
  split_ifs
  · exact ⟨_, rfl⟩
  · split <;> exact ⟨_, rfl⟩

/-- PAD reads N - WPTR bytes of P and fills B up to N (R101). -/
theorem execPad_answers (h : s.Inv) : ∃ t, execPad s = .next t := by
  obtain ⟨-, hlp⟩ := inv_nmax_bounds h
  have hw := inv_wptr_le_n h
  have hn := inv_n_le_nmax h
  have hread : s.n.toNat - s.wptr.toNat ≤ s.inst.lp := by omega
  have hlen : (s.inst.p.take (s.n.toNat - s.wptr.toNat)).length = s.n.toNat - s.wptr.toNat :=
    List.length_take_of_le hread
  exact ⟨_, execPad_next_iff.2 ⟨hread, .inr (by omega), rfl⟩⟩

/-- Every operation, not only the one fetched, answers a next state. -/
theorem exec_answers (h : s.Inv) (i : Instr) : ∃ t, exec i s = .next t := by
  have hn := inv_n_le_nmax h
  have hwords : wordCount s ≤ s.inst.nmax.toNat / 8 := Nat.div_le_div_right hn
  have hbytes : 8 * wordCount s ≤ s.inst.nmax.toNat := (Nat.mul_div_le _ _).trans hn
  cases i with
  | create n mode => exact execCreate_answers h n mode
  | absorb => exact execAbsorb_answers s
  | wrcmd w => exact execWrcmd_answers h w
  | push b => exact execPush_answers h b
  | rdh k => exact execRdh_answers k s
  | rdstatus | rdcfg | rdcap | rdfill | rderrinfo | idle => exact ⟨_, rfl⟩
  | pad => exact execPad_answers h
  | pack => exact ⟨_, execPack_next_iff.2 ⟨hwords, rfl⟩⟩
  | mix => exact ⟨_, execMix_next_iff.2 ⟨hwords, rfl⟩⟩
  | diffuse => exact ⟨_, execDiffuse_next_iff.2 ⟨hn, rfl⟩⟩
  | foldE => exact ⟨_, execFoldE_next_iff.2 ⟨hbytes, rfl⟩⟩
  | foldX => exact ⟨_, execFoldX_next_iff.2 ⟨hn, rfl⟩⟩

theorem stepRun_answers (h : s.Inv) : ∃ t, stepRun s = .next t := by
  cases hf : fetch s with
  | ok i =>
    rw [stepRun_of_fetch hf]
    exact exec_answers h i
  | error r => exact ⟨_, stepRun_of_reject hf⟩

/-- Settles O33: the reset event always happens, and with the invariant every operation that can be fetched
stays within the files. -/
theorem invariantStatesAlwaysStep : Obligations.InvariantStatesAlwaysStep := by
  intro s h
  rcases step_cases s with ⟨rest, -, hr⟩ | ⟨-, hr⟩
  · exact ⟨_, hr⟩
  · have hi : { s with resetLine := s.resetLine.tail }.Inv := h
    rw [hr]
    exact stepRun_answers hi

end Sys2Proof.Machine

/-! SUPPORT. Transactions (R55, R85, R86): which headers are rows of format B, what a read in the window of
H is decoded as, and what the step does with each. -/

namespace Sys2Proof.Machine

variable {s : State} {t : Transaction} {rest : List Transaction} {i : Instr}

/-! ## Headers -/

theorem bitVec_append_inj {m n : Nat} {x x' : BitVec m} {y y' : BitVec n} :
    x ++ y = x' ++ y' ↔ x = x' ∧ y = y' := by
  constructor
  · intro h
    have hx := congrArg (·.extractLsb' n m) h
    have hy := congrArg (·.extractLsb' 0 n) h
    simp only [BitVec.extractLsb'_append_eq_left, BitVec.extractLsb'_append_eq_right] at hx hy
    exact ⟨hx, hy⟩
  · rintro ⟨rfl, rfl⟩
    rfl

theorem Size.code_inj {x y : Size} : x.code = y.code ↔ x = y := by
  cases x <;> cases y <;> simp [Size.code]

/-- A header determines direction, width and offset (R85). -/
theorem header_eq_iff {t u : Transaction} :
    t.header = u.header ↔ t.dir = u.dir ∧ t.size = u.size ∧ t.addr = u.addr := by
  rw [Transaction.header, Transaction.header, bitVec_append_inj, bitVec_append_inj,
    Size.code_inj, and_assoc]
  cases t.dir <;> cases u.dir <;> simp

/-- A row of R86 that is a 4-byte read of a register. -/
theorem header_eq_read_iff {th : BitVec 20} (a : BitVec 16) (h : (memRead a .four).header = th) :
    t.header = th ↔ t.dir = .read ∧ t.size = .four ∧ t.addr = a := by
  rw [← h, header_eq_iff]
  rfl

/-- A row of R86 that is a write: WRCMD or PUSH. -/
theorem header_eq_write_iff {th : BitVec 20} (a : BitVec 16) (sz : Size)
    (h : (memWrite a sz 0).header = th) :
    t.header = th ↔ t.dir = .write ∧ t.size = sz ∧ t.addr = a := by
  rw [← h, header_eq_iff]
  rfl

/-- A 1-byte read in the window of H (R52, R55). -/
abbrev Transaction.ReadsWindow (t : Transaction) : Prop :=
  t.dir = .read ∧ t.size = .one ∧ 0x1000 ≤ t.addr.toNat ∧ t.addr.toNat ≤ 0x1FFF

/-- RDH's row: RW = 0, SZ = 0 and ADDR[15:12] = 1 (R86). -/
theorem header_window_iff : t.header.extractLsb' 12 8 = 0x01 ↔ t.ReadsWindow := by
  have ha := t.addr.isLt
  rw [Transaction.ReadsWindow, ← BitVec.toNat_inj, BitVec.extractLsb'_toNat,
    Nat.shiftRight_eq_div_pow, Transaction.header, toNat_append_eq_add, toNat_append_eq_add]
  cases t.dir <;> cases t.size <;> simp [Size.code] <;> omega

theorem decodeTransaction_ok_iff {th : BitVec 20} {d : Reg} :
    (∃ i, decodeTransaction th d = .ok i) ↔
      th = 0xA0000 ∨ th = 0x20004 ∨ th = 0x20008 ∨ th = 0x2000C ∨ th = 0x20010 ∨ th = 0x20014 ∨
        th = 0x80020 ∨ th.extractLsb' 12 8 = 0x01 := by
  unfold decodeTransaction
  split_ifs <;> simp_all

/-- Settles O4: each row of R86 is a header that fixes direction, width and offset as R55 lists them. -/
theorem busOperationsAreTheLegalAccesses : Obligations.BusOperationsAreTheLegalAccesses := by
  intro t
  have hcmd : t.header = 0xA0000 ↔ _ := header_eq_write_iff 0x0000 .four rfl
  have hstatus : t.header = 0x20004 ↔ _ := header_eq_read_iff 0x0004 rfl
  have hcfg : t.header = 0x20008 ↔ _ := header_eq_read_iff 0x0008 rfl
  have hcap : t.header = 0x2000C ↔ _ := header_eq_read_iff 0x000C rfl
  have hfill : t.header = 0x20010 ↔ _ := header_eq_read_iff 0x0010 rfl
  have herrInfo : t.header = 0x20014 ↔ _ := header_eq_read_iff 0x0014 rfl
  have hpush : t.header = 0x80020 ↔ _ := header_eq_write_iff 0x0020 .one rfl
  rw [Transaction.words, decode, decodeTransaction_ok_iff, hcmd, hstatus, hcfg, hcap, hfill,
    herrInfo, hpush, header_window_iff]
  simp only [and_or_left, or_assoc]

/-! ## Reads in the window of H -/

/-- The rows of R86 with a fixed address lie outside the window's. -/
theorem decodeTransaction_window {th : BitVec 20} {d : Reg} (h : th.extractLsb' 12 8 = 0x01) :
    decodeTransaction th d = .ok (.rdh (th.extractLsb' 0 12)) := by
  have hne (c : BitVec 20) (hc : c.extractLsb' 12 8 ≠ 0x01) : th ≠ c := by
    rintro rfl
    exact hc h
  rw [decodeTransaction, if_neg (hne _ (by decide)), if_neg (hne _ (by decide)),
    if_neg (hne _ (by decide)), if_neg (hne _ (by decide)), if_neg (hne _ (by decide)),
    if_neg (hne _ (by decide)), if_neg (hne _ (by decide)), if_pos h]

/-- A read in the window is RDH of the index its offset gives (R86). -/
theorem readOperation_window (h : t.ReadsWindow) :
    ∃ k : BitVec 12, readOperation t.words = .ok (.rdh k) ∧ t.addr.toNat = 0x1000 + k.toNat := by
  refine ⟨t.header.extractLsb' 0 12, ?_, ?_⟩
  · simp only [readOperation, Transaction.words, decode,
      decodeTransaction_window (header_window_iff.2 h)]
  · obtain ⟨-, -, hlo, hhi⟩ := h
    rw [BitVec.extractLsb'_toNat, Nat.shiftRight_zero, Transaction.header, toNat_append_eq_add]
    omega

theorem rdhOp_addr {k : Nat} (hk : k < 4096) : (rdhOp k).addr.toNat = 0x1000 + k := by
  rw [rdhOp, memRead, BitVec.toNat_ofNat]
  omega

theorem rdhOp_readsWindow {k : Nat} (hk : k < 4096) : (rdhOp k).ReadsWindow := by
  rw [Transaction.ReadsWindow, rdhOp_addr hk]
  exact ⟨rfl, rfl, by omega, by omega⟩

theorem readOperation_reject {e : Encoded} {r : Reject} (h : decode e = .error r) :
    readOperation e = .error r := by
  simp only [readOperation, h]

/-- RDH without a session or past N (R178). -/
theorem exec_rdh_refused {k : BitVec 12} (h : s.valid = false ∨ s.n.toNat ≤ k.toNat) :
    exec (.rdh k) s = .next (s.respond .busError) := if_pos h

/-- RDH of a byte of an open session (R178). -/
theorem exec_rdh_byte {k : BitVec 12} {x : Byte} (hv : s.valid = true) (hk : k.toNat < s.n.toNat)
    (hx : s.h.read k.toNat = some x) : exec (.rdh k) s = .next (s.respond (.byte x)) := by
  have hexec : exec (.rdh k) s = execRdh k s := rfl
  rw [hexec, execRdh, if_neg (by simp [hv, hk]), hx]

/-! ## The step on the transaction being served -/

theorem step_of_noReset (h : s.NoReset) :
    step s = stepRun { s with resetLine := s.resetLine.tail } := by
  rcases step_cases s with ⟨rest, hr, -⟩ | ⟨-, hstep⟩
  · exact absurd (by rw [hr]; rfl) h
  · exact hstep

theorem step_of_readOperation (h : s.NoReset) (hs : s.seq = .idle) (hp : s.pending = t :: rest)
    (hi : readOperation t.words = .ok i) :
    step s = exec i { s with resetLine := s.resetLine.tail } := by
  rw [step_of_noReset h]
  exact stepRun_of_fetch ((fetch_pending hs hp).trans hi)

/-- The two ways to BusError (R56): a transaction that is no bus operation, and RDH that is refused. -/
theorem step_busError (h : s.NoReset) (hs : s.seq = .idle) (hp : s.pending = t :: rest)
    (ht : (∃ r, decode t.words = .error r) ∨
      ∃ k, readOperation t.words = .ok (.rdh k) ∧ (s.valid = false ∨ s.n.toNat ≤ k.toNat)) :
    step s = .next { s with
      pending := rest, replies := .busError :: s.replies, resetLine := s.resetLine.tail } := by
  have hanswer : step s = .next ({ s with resetLine := s.resetLine.tail }.respond .busError) := by
    rcases ht with ⟨r, hr⟩ | ⟨k, hk, hrefused⟩
    · rw [step_of_noReset h]
      exact stepRun_of_reject ((fetch_pending hs hp).trans (readOperation_reject hr))
    · rw [step_of_readOperation h hs hp hk]
      exact exec_rdh_refused hrefused
  rw [hanswer, State.respond, hp]
  rfl

/-- A read in the window that R55 does not make legal is an RDH that is refused. -/
theorem window_read_refused (h : t.ReadsWindow) (hl : ¬ s.legalAccess t) :
    ∃ k, readOperation t.words = .ok (.rdh k) ∧ (s.valid = false ∨ s.n.toNat ≤ k.toNat) := by
  obtain ⟨k, hk, haddr⟩ := readOperation_window h
  refine ⟨k, hk, ?_⟩
  by_contra hc
  simp only [not_or, Bool.not_eq_false, Nat.not_le] at hc
  obtain ⟨hd, hsz, hlo, hhi⟩ := h
  exact hl (.inr (.inr (.inr ⟨hd, hsz, hc.1, hlo, by omega⟩)))

/-- Settles O8: a transaction that R55 does not make legal either has no row of R86, or has the row of RDH
and is refused there. -/
theorem illegalTransactionChangesNothing : Obligations.IllegalTransactionChangesNothing := by
  intro s t ts h hs hp hl
  refine step_busError h hs hp ?_
  cases hd : decode t.words with
  | error r => exact .inl ⟨r, rfl⟩
  | ok i =>
    rcases (busOperationsAreTheLegalAccesses t).1 ⟨i, hd⟩ with hcmd | hreg | hpush | hwindow
    · exact absurd (.inl hcmd) hl
    · exact absurd (.inr (.inl hreg)) hl
    · exact absurd (.inr (.inr (.inl hpush))) hl
    · exact .inr (window_read_refused hwindow hl)

/-! ## Reading the digest -/

theorem run_succ_of_step {M : Host.Core} {k : Nat} {s s' : M.State} (h : M.step s = .next s') :
    M.run (k + 1) s = M.run k s' := by
  simp only [Host.Core.run, h]

/-- RDH of a byte of an open session, as a step: the byte is the reply, and no register changes. -/
theorem step_rdhOp (hopen : s.SessionOpen) (hr : s.resetLine = []) {k : Nat} (hk : k < s.n.toNat)
    (hcap : s.n.toNat ≤ 4096) {x : Byte} (hx : s.h.read k = some x)
    (hp : s.pending = rdhOp k :: rest) :
    step s = .next { s with pending := rest, replies := .byte x :: s.replies } := by
  obtain ⟨hv, hs⟩ := hopen
  have hk' : k < 4096 := by omega
  obtain ⟨j, hj, haddr⟩ := readOperation_window (rdhOp_readsWindow hk')
  obtain rfl : j.toNat = k := by
    rw [rdhOp_addr hk'] at haddr
    omega
  rw [step_of_readOperation (by simp [hr]) hs hp hj, hr, List.tail_nil, ← hr,
    exec_rdh_byte hv hk hx, State.respond, hp]
  rfl

/-- Reads of any indices below N, in any order, answer the bytes of H there, one step each. -/
theorem run_rdhOps {ks : List Nat} {bytes : List Byte} (hopen : s.SessionOpen)
    (hr : s.resetLine = []) (hcap : s.n.toNat ≤ 4096) (hks : ∀ k ∈ ks, k < s.n.toNat)
    (hbytes : ks.map s.h.read = bytes.map some) (hp : s.pending = ks.map rdhOp ++ rest) :
    Host.Core.run core ks.length s = .next { s with
      pending := rest, replies := (bytes.map Reply.byte).reverse ++ s.replies } := by
  induction ks generalizing s bytes with
  | nil =>
    obtain rfl : bytes = [] := by simpa using hbytes.symm
    rw [List.map_nil, List.nil_append] at hp
    rw [← hp]
    rfl
  | cons k ks ih =>
    cases bytes with
    | nil => cases hbytes
    | cons x bytes =>
      obtain ⟨hx, hxs⟩ := List.cons.inj hbytes
      have hstep := step_rdhOp hopen hr (hks k (.head _)) hcap hx hp
      have hrest := ih
        (s := { s with pending := ks.map rdhOp ++ rest, replies := .byte x :: s.replies })
        hopen hr hcap (fun j hj => hks j (.tail _ hj)) hxs rfl
      refine ((run_succ_of_step (M := core) hstep).trans hrest).trans ?_
      simp

/-- Settles O42: in an open session N is within the window and H[0, N) holds values, so DIGEST's N reads
answer them one by one. -/
theorem digestReadsTheWholeState : Obligations.DigestReadsTheWholeState := by
  intro s rest h hopen hr hp
  obtain ⟨bytes, -, hbytes⟩ := readCells_zero_of_filled (inv_h_filled h)
  refine ⟨bytes, valuesOf_eq_some_iff.2 hbytes, ?_⟩
  obtain ⟨hwindow, -⟩ := inv_nmax_bounds h
  have hcap : s.n.toNat ≤ 4096 := (inv_n_le_nmax h).trans hwindow
  have hmap : (List.range s.n.toNat).map s.h.read = bytes.map some := by
    simpa [readCells] using hbytes
  simpa using run_rdhOps hopen hr hcap (by simp) hmap hp

end Sys2Proof.Machine

/-! SUPPORT. The encodings (R81 to R88): the fields of a command word, and that decoding and encoding are
inverse to each other. -/

namespace Sys2Proof.Machine

variable {s : State} {i : Instr}

/-! ## Fields of a command word -/

theorem foldModeBit_inj {m m' : FoldMode} : foldModeBit m = foldModeBit m' ↔ m = m' := by
  cases m <;> cases m' <;> simp [foldModeBit]

/-- MODE, decoded from bit 16, has that bit (R6, R81). -/
theorem foldModeBit_getLsbD (w : Reg) :
    foldModeBit (foldModeOfBit (w.getLsbD 16)) = w.extractLsb' 16 1 := by
  rw [foldModeBit_foldModeOfBit]
  ext k hk
  simp [show k = 0 by omega]

/-- The four fields of CREATE's word are its operands (R82). -/
theorem createWord_fields (n : BitVec 16) (mode : FoldMode) :
    (createWord n mode).extractLsb' 24 8 = 0x01 ∧ (createWord n mode).extractLsb' 17 7 = 0 ∧
      foldModeOfBit ((createWord n mode).getLsbD 16) = mode ∧
      (createWord n mode).extractLsb' 0 16 = n := by
  have h := command_fields_append (createWord n mode)
  rw [← foldModeBit_getLsbD] at h
  conv at h => rhs; rw [createWord]
  simpa only [bitVec_append_inj, foldModeBit_inj, and_assoc] using h

/-- OPC and Z together are the fifteen bits above M. -/
theorem opc_z_eq_iff {w : Reg} :
    w.extractLsb' 17 15 = 0x0080 ↔ w.extractLsb' 24 8 = 0x01 ∧ w.extractLsb' 17 7 = 0 := by
  rw [← bitVec_append_inj,
    BitVec.extractLsb'_append_extractLsb'_eq_extractLsb' (rfl : 24 = 17 + 7)]
  rfl

/-- ABSORB's word is OPC = 2 and zeros below (R83). -/
theorem eq_absorbWord_iff {w : Reg} :
    w = 0x02000000 ↔ w.extractLsb' 24 8 = 0x02 ∧ w.extractLsb' 0 24 = 0 := by
  rw [← bitVec_append_inj,
    BitVec.extractLsb'_append_extractLsb'_eq_extractLsb' (rfl : 24 = 0 + 24),
    show w.extractLsb' 0 (8 + 24) = w from BitVec.extractLsb'_eq_self]
  rfl

/-! ## Format C -/

theorem decodeCommand_create {w : Reg} (hopc : w.extractLsb' 24 8 = 0x01)
    (hz : w.extractLsb' 17 7 = 0) :
    decodeCommand w = .ok (.create (w.extractLsb' 0 16) (foldModeOfBit (w.getLsbD 16))) :=
  if_pos ⟨hopc, hz⟩

theorem decodeCommand_createWord (n : BitVec 16) (mode : FoldMode) :
    decodeCommand (createWord n mode) = .ok (.create n mode) := by
  obtain ⟨hopc, hz, hm, hn⟩ := createWord_fields n mode
  rw [decodeCommand_create hopc hz, hm, hn]

theorem decodeCommand_absorbWord : decodeCommand 0x02000000 = .ok .absorb := rfl

theorem eq_absorbWord_of_decodeCommand {w : Reg} (h : decodeCommand w = .ok .absorb) :
    w = absorbWord := by
  unfold decodeCommand at h
  split_ifs at h with _ hw
  · cases h
  · exact hw

theorem decodeCommand_error_iff {w : Reg} :
    decodeCommand w = .error (.illegalCommand w) ↔
      ¬ (w.extractLsb' 24 8 = 0x01 ∧ w.extractLsb' 17 7 = 0) ∧ w ≠ 0x02000000 := by
  unfold decodeCommand
  split_ifs <;> simp_all

/-- Settles O2: what is no CREATE and no ABSORB is split by the value of OPC. -/
theorem illegalCommandWordsAreTheListed : Obligations.IllegalCommandWordsAreTheListed := by
  intro c
  rw [decode, decodeCommand_error_iff, ne_eq, eq_absorbWord_iff]
  generalize c.extractLsb' 24 8 = opc
  by_cases h1 : opc = 0x01
  · simp [h1]
  · by_cases h2 : opc = 0x02
    · simp [h2]
    · have hrest : opc = 0x00 ∨ 0x03 ≤ opc.toNat := by bv_omega
      refine iff_of_true ⟨fun h => h1 h.1, fun h => h2 h.1⟩ ?_
      exact hrest.imp_right .inl

/-- Settles O3: a word decoded as CREATE is the one CREATE's encoding gives, and ABSORB has one word. -/
theorem commandDecodingDropsNoBit : Obligations.CommandDecodingDropsNoBit := by
  intro c i h
  have hd : decodeCommand c = .ok i := h
  rcases decodeCommand_cases c with ⟨n, mode, hc⟩ | hc | hc
  · cases hc.symm.trans hd
    rw [encode, ← eq_createWord_of_decodeCommand hc]
  · cases hc.symm.trans hd
    rw [encode, eq_absorbWord_of_decodeCommand hc]
  · cases hc.symm.trans hd

/-! ## Formats B and U -/

/-- PUSH carries its byte in the low lane of the write data (R86). -/
theorem decodeTransaction_push (b : Byte) :
    decodeTransaction 0x80020 (b.setWidth 32) = .ok (.push b) := by
  have hb : (b.setWidth 32).extractLsb' 0 8 = b := by
    rw [← BitVec.setWidth_eq_extractLsb' (by decide), BitVec.setWidth_setWidth_of_le _ (by decide),
      BitVec.setWidth_eq]
  have hrow : decodeTransaction 0x80020 (b.setWidth 32) =
      .ok (.push ((b.setWidth 32).extractLsb' 0 8)) := rfl
  rw [hrow, hb]

/-- RDH carries its index in ADDR[11:0], below the window's 0x01 (R86). -/
theorem decodeTransaction_rdh (k : BitVec 12) (d : Reg) :
    decodeTransaction ((0x01 : BitVec 8) ++ k) d = .ok (.rdh k) := by
  rw [decodeTransaction_window BitVec.extractLsb'_append_eq_left,
    BitVec.extractLsb'_append_eq_right]

/-- Settles O1: CREATE, PUSH and RDH give their operands back field by field; WRCMD's operand is the write
data itself, and the other rows are fixed words. -/
theorem decodeEncodeRoundTrip : Obligations.DecodeEncodeRoundTrip := by
  intro i _
  cases i with
  | create n mode => exact decodeCommand_createWord n mode
  | push b => exact decodeTransaction_push b
  | rdh k => exact decodeTransaction_rdh k 0
  | absorb | wrcmd | rdstatus | rdcfg | rdcap | rdfill | rderrinfo => rfl
  | idle | pad | pack | mix | diffuse | foldE | foldX => rfl

/-- Settles O5: each word is looked up in its table. -/
theorem sampleWordsDecode : Obligations.SampleWordsDecode := by
  refine ⟨?_, ?_, ?_, ?_, ?_, ?_, ?_⟩ <;> decide

end Sys2Proof.Machine

/-! SUPPORT. Commands as the host delivers them: what CREATE of a legal size leaves, a CMD write as a
transaction, and WRCMD on the words that are commands and those that are none. -/

namespace Sys2Proof.Machine

variable {s : State} {i : Instr}

/-- CREATE of a size it accepts: a new session with H = P[0, N), and everything else as it was
(R170, R171). -/
theorem execCreate_opens {n : BitVec 16} (mode : FoldMode) (h8 : 8 ≤ n.toNat)
    (hmod : n.toNat % 8 = 0) (hn : n.toNat ≤ s.inst.nmax.toNat)
    (hlp : s.inst.nmax.toNat ≤ s.inst.lp) :
    ∃ t, execCreate n mode s = .next t ∧
      (∀ i, i < n.toNat → t.h.read i = s.inst.p[i]?) ∧
      (∀ i, n.toNat ≤ i → t.h.read i = s.h.read i) ∧
      t = { s with
        h := t.h, n := n, mode := mode, wptr := 0, err := .noError, errInfo := 0, valid := true,
        pending := s.pending.tail, replies := .ok :: s.replies } := by
  have hl : legalSize s.inst n = true := legalSize_iff.2 ⟨h8, hmod, hn⟩
  have hlen : (s.inst.p.take n.toNat).length = n.toNat := List.length_take_of_le (hn.trans hlp)
  refine ⟨_, (execCreate_legal_next_iff hl).2 ⟨hn.trans hlp, .inr (by omega), rfl⟩,
    fun i hi => ?_, fun i hi => ?_, rfl⟩
  · have hread := Cells.read_putAll_some s.h 0 (s.inst.p.take n.toNat) i (by omega)
    rw [Nat.zero_add, List.getElem?_take_of_lt hi] at hread
    exact hread
  · exact Cells.read_putAll_outside _ _ _ _ (.inr (by rw [List.length_map, hlen]; omega))

theorem execAbsorb_accepted (hv : s.valid = true) (hw : s.wptr ≠ 0) :
    execAbsorb s = .next { s with seq := .pad } := by
  rw [execAbsorb, if_neg (by simp [hv]), if_neg hw]

/-- The command word of a CMD write arrives whole (R86). -/
theorem cmdWrite_words (w : Reg) : (cmdWrite w).words = .transaction 0xA0000 w := by
  have hw : (w.setWidth 64).setWidth 32 = w := by
    rw [BitVec.setWidth_setWidth_of_le _ (by decide), BitVec.setWidth_eq]
  have hheader : (cmdWrite w).header = 0xA0000 := (header_eq_iff (u := cmdWrite 0)).2 ⟨rfl, rfl, rfl⟩
  rw [Transaction.words, hheader]
  exact congrArg _ hw

/-- A CMD write of a command is read as that command (R86). -/
theorem readOperation_cmdWrite {w : Reg} (h : decodeCommand w = .ok i) :
    readOperation (cmdWrite w).words = .ok i := by
  have hwrcmd : decode (cmdWrite w).words = .ok (.wrcmd w) := by
    rw [cmdWrite_words]
    rfl
  have hd : decode (.command w) = .ok i := h
  simp only [readOperation, hwrcmd, hd]

/-- WRCMD of a word that is a command is that command (R81, R86). -/
theorem exec_wrcmd_of_decodeCommand {w : Reg} (h : decodeCommand w = .ok i) :
    exec (.wrcmd w) s = exec i s := by
  rcases decodeCommand_cases w with ⟨n, mode, hw⟩ | hw | hw
  · cases hw.symm.trans h
    exact execWrcmd_create hw
  · cases hw.symm.trans h
    exact execWrcmd_absorb hw
  · cases hw.symm.trans h

/-- Settles O7: the write is read as the command of its word, and WRCMD of that word does the same. -/
theorem commandWriteRunsItsCommand : Obligations.CommandWriteRunsItsCommand := by
  intro s w ts i h hs hp hd
  exact ⟨step_of_readOperation h hs hp (readOperation_cmdWrite hd), exec_wrcmd_of_decodeCommand hd⟩

/-- Settles O15: the word is decoded as ABSORB, as CREATE of its fields, or as no command, and WRCMD does
what it is decoded as. -/
theorem wrcmdDeliversItsWord : Obligations.WrcmdDeliversItsWord := by
  intro s w
  have habsorb : w = 0x02000000 → exec (.wrcmd w) s = exec .absorb s := by
    rintro rfl
    exact exec_wrcmd_of_decodeCommand decodeCommand_absorbWord
  have hcreate : w.extractLsb' 17 15 = 0x0080 → exec (.wrcmd w) s =
      exec (.create (w.extractLsb' 0 16) (foldModeOfBit (w.getLsbD 16))) s := by
    intro hw
    obtain ⟨hopc, hz⟩ := opc_z_eq_iff.1 hw
    exact exec_wrcmd_of_decodeCommand (decodeCommand_create hopc hz)
  refine ⟨habsorb, hcreate, fun hw hv hp => ?_, fun hw h8 hmod hn hlp => ?_, fun hc ha => ?_⟩
  · rw [habsorb hw]
    exact execAbsorb_accepted hv hp
  · rw [hcreate hw]
    exact execCreate_opens _ h8 hmod hn hlp
  · exact execWrcmd_illegal (decodeCommand_error_iff.2 ⟨fun hw => hc (opc_z_eq_iff.2 hw), ha⟩)

end Sys2Proof.Machine


/-! SUPPORT. The closed form of R165: DIFFUSE adds one byte, the cross fold T and the own byte, and so the
rounds and the fold together are the function of R176. -/

namespace Sys2Proof.Machine

/-- The exclusive-or of all the bytes of R, T of R162. -/
abbrev totalByte (r : List Byte) : Byte := r.foldl (fun x y => x ^^^ y) 0

/-- DIFFUSE after each of the rounds, on one byte of H. -/
abbrev diffuseRounds (rounds : List (List Word)) (x : Byte) : Byte :=
  rounds.foldl (fun y words => diffuse words y) x

/-- FOLD as CFG.MODE selects it (R161, R162). -/
def foldWith : FoldMode → List Byte → List Byte → List Byte
  | .elementwise => foldElementwise
  | .cross => foldCross

/-! ## Sums of bytes -/

theorem foldl_xor_eq {α : Type} (f : α → Byte) (xs : List α) (x : Byte) :
    xs.foldl (fun d w => d ^^^ f w) x = x ^^^ xs.foldl (fun d w => d ^^^ f w) 0 := by
  induction xs generalizing x with
  | nil => simp
  | cons w xs ih =>
    rw [List.foldl_cons, List.foldl_cons, ih, ih (0 ^^^ f w)]
    simp [BitVec.xor_assoc]

theorem totalByte_cons (y : Byte) (r : List Byte) : totalByte (y :: r) = y ^^^ totalByte r := by
  have hsum := foldl_xor_eq (fun z : Byte => z) r (0 ^^^ y)
  simpa [totalByte] using hsum

/-! ## DIFFUSE -/

/-- A shift by a byte or more leaves nothing in the low byte (R141). -/
theorem lowByte_shiftLeft (w : Word) {k : Nat} (h : 8 ≤ k) : lowByte (w <<< k) = 0 := by
  ext i hi
  simp [lowByte, show i < k by omega]

/-- The three shifted terms of R140 vanish (R141). -/
theorem diffuseByte_eq (x : Byte) (w : Word) : diffuseByte x w = x ^^^ lowByte w := by
  rw [diffuseByte, lowByte_shiftLeft w (by decide), lowByte_shiftLeft w (by decide),
    lowByte_shiftLeft w (by decide)]
  simp

theorem diffuse_eq (words : List Word) (x : Byte) : diffuse words x = x ^^^ diffusionByte words := by
  have hbyte : diffuseByte = fun y w => y ^^^ lowByte w := funext₂ diffuseByte_eq
  rw [diffuse, hbyte, foldl_xor_eq lowByte, diffusionByte]

theorem diffuseRounds_eq (rounds : List (List Word)) (x : Byte) :
    diffuseRounds rounds x = x ^^^ rounds.foldl (fun y words => y ^^^ diffusionByte words) 0 := by
  simp only [diffuseRounds, diffuse_eq]
  exact foldl_xor_eq diffusionByte rounds x

/-! ## FOLD -/

/-- Past its own index the cross fold adds every byte (R162). -/
theorem crossFrom_past {i j : Nat} (h : i < j) (r : List Byte) (x : Byte) :
    crossFrom (fun x y => x ^^^ y) i j r x = x ^^^ totalByte r := by
  induction r generalizing j x with
  | nil => simp [crossFrom]
  | cons y r ih =>
    rw [crossFrom, if_neg (by omega), ih (by omega), totalByte_cons, BitVec.xor_assoc]

/-- The cross fold adds every byte, and its own a second time (R162). -/
theorem crossFrom_own {k : Nat} {r : List Byte} {y : Byte} (h : r[k]? = some y) (j : Nat)
    (x : Byte) :
    crossFrom (fun x y => x ^^^ y) (j + k) j r x = x ^^^ totalByte r ^^^ y := by
  induction r generalizing j k x with
  | nil => simp at h
  | cons z r ih =>
    rw [crossFrom, totalByte_cons]
    cases k with
    | zero =>
      obtain rfl : z = y := by simpa using h
      rw [if_pos (Nat.add_zero j).symm, crossFrom_past (by omega), BitVec.xor_comm z,
        BitVec.xor_assoc, BitVec.xor_assoc, BitVec.xor_self, BitVec.xor_zero]
    | succ k =>
      rw [if_neg (by omega), show j + (k + 1) = j + 1 + k by omega, ih (by simpa using h),
        BitVec.xor_assoc x z]

theorem foldCross_eq_zipWith {h r : List Byte} (hlen : h.length = r.length) :
    foldCross h r = List.zipWith (fun x y => x ^^^ totalByte r ^^^ y) h r := by
  refine List.ext_getElem (by simp [foldCross, hlen]) fun i hi hi' => ?_
  have hr : i < r.length := by simpa [hlen] using hi'
  have hown := crossFrom_own (List.getElem?_eq_getElem hr) 0
  rw [Nat.zero_add] at hown
  simp [foldCross, hown]

/-- The rounds and the fold, one after the other, are absorb(H, d) of R176. -/
theorem fold_diffuseRounds_eq_absorbBlock {inst : Config.Instance} {n : Nat} (mode : FoldMode)
    {h d : List Byte}
    (hlen : h.length = (serialise ((blockRounds inst n d).getLastD [])).length) :
    foldWith mode (h.map (diffuseRounds (blockRounds inst n d)))
        (serialise ((blockRounds inst n d).getLastD [])) =
      absorbBlock inst n mode h d := by
  have hrounds : diffuseRounds (blockRounds inst n d) = fun x => x ^^^ _ :=
    funext (diffuseRounds_eq _)
  rw [hrounds]
  cases mode with
  | elementwise => exact List.zipWith_map_left
  | cross =>
    rw [foldWith, foldCross_eq_zipWith (by simpa using hlen), List.zipWith_map_left, absorbBlock,
      blockByte]
    simp only [BitVec.xor_assoc]

end Sys2Proof.Machine


/-! SUPPORT. Runs in which the host has no move, and an accepted ABSORB as one of them: its fourteen steps
compute the function of R176 (R174, R202, R208). -/

namespace Sys2Proof.Machine

variable {s t u : State} {i : Instr} {w : Transaction} {rest : List Transaction}

/-! ## Runs in which the host has no move -/

/-- `k` steps from `s` reach `t`, and the host, whatever its script, issues nothing on the way (R60,
R207). -/
def RunsAlone (k : Nat) (s t : State) : Prop :=
  ∀ script, runScript k script s = .next (script, t)

theorem RunsAlone.trans {j k : Nat} (h : RunsAlone j s t) (h' : RunsAlone k t u) :
    RunsAlone (j + k) s u :=
  fun script => (runScript_add (h script)).trans (h' script)

theorem runsAlone_step (hbusy : s.seq ≠ .idle ∨ s.pending ≠ []) (h : step s = .next t) :
    RunsAlone 1 s t := by
  intro script
  have hwait := issueNext_waits script hbusy
  rw [runScript_succ (by rwa [hwait]), hwait]
  rfl

theorem drop_sample_of_noSamples (h : s.resetLine = []) :
    { s with resetLine := s.resetLine.tail } = s := by
  rw [h, List.tail_nil, ← h]

/-- The step while an ABSORB runs is the micro-operation SEQ selects (R201). -/
theorem step_microOp (hr : s.resetLine = []) (hs : s.seq ≠ .idle) :
    step s = exec (microOp s.mode s.seq) s := by
  rw [step_of_noReset (by simp [hr]), drop_sample_of_noSamples hr,
    stepRun_of_fetch (fetch_busy hs)]

/-- The step on a transaction being served is the operation it is read as (R201, R207). -/
theorem step_operation (hr : s.resetLine = []) (hs : s.seq = .idle) (hp : s.pending = w :: rest)
    (hi : readOperation w.words = .ok i) : step s = exec i s := by
  rw [step_of_readOperation (by simp [hr]) hs hp hi, drop_sample_of_noSamples hr]

theorem runsAlone_operation (hr : s.resetLine = []) (hs : s.seq = .idle)
    (hp : s.pending = w :: rest) (hi : readOperation w.words = .ok i) (he : exec i s = .next t) :
    RunsAlone 1 s t :=
  runsAlone_step (.inr (by simp [hp])) ((step_operation hr hs hp hi).trans he)

theorem runsAlone_microOp {q : Seq} (hr : s.resetLine = []) (hq : s.seq = q) (hne : q ≠ .idle)
    (he : exec (microOp s.mode q) s = .next t) : RunsAlone 1 s t := by
  subst hq
  exact runsAlone_step (.inl hne) ((step_microOp hr hne).trans he)

/-! ## Ranges of values -/

/-- Values put right after a range of values extend the range. -/
theorem readCells_putAll_append {α : Type} {c : Cells α} {m : Nat} {xs ys : List α}
    (h : readCells c 0 m = ys.map some) :
    readCells (c.putAll m (xs.map some)) 0 (m + xs.length) = (ys ++ xs).map some := by
  obtain ⟨rfl, hys⟩ := readCells_eq_map_some_iff.1 h
  refine readCells_eq_map_some_iff.2 ⟨List.length_append, fun k hk => ?_⟩
  by_cases hlt : k < ys.length
  · rw [Cells.read_putAll_outside _ _ _ _ (.inl (by omega)), hys k hlt,
      List.getElem?_append_left hlt]
  · obtain ⟨j, rfl⟩ : ∃ j, k = ys.length + j := ⟨k - ys.length, by omega⟩
    rw [Nat.zero_add, Cells.read_putAll_some _ _ _ _ (by omega),
      List.getElem?_append_right (by omega), Nat.add_sub_cancel_left]

theorem readCells_putAll_zero {α : Type} {n : Nat} (c : Cells α) {xs : List α}
    (h : xs.length = n) : readCells (c.putAll 0 (xs.map some)) 0 n = xs.map some := by
  subst h
  have hput := readCells_putAll_append (c := c) (m := 0) (xs := xs) (ys := []) rfl
  rwa [Nat.zero_add] at hput

theorem length_of_readCells {α : Type} {c : Cells α} {lo n : Nat} {xs : List α}
    (h : readCells c lo n = xs.map some) : xs.length = n :=
  (readCells_eq_map_some_iff.1 h).1

/-! ## The micro-operations on values -/

theorem runsAlone_pad {block : List Byte} (hr : s.resetLine = []) (hq : s.seq = .pad)
    (hw : s.wptr.toNat ≤ s.n.toNat) (hn : s.n.toNat ≤ s.inst.nmax.toNat)
    (hlp : s.inst.nmax.toNat ≤ s.inst.lp) (hb : s.readB 0 s.wptr.toNat = block.map some) :
    ∃ b, readCells b 0 s.n.toNat = (paddedBlock s.inst s.n.toNat block).map some ∧
      RunsAlone 1 s { s with b := b, seq := .pack } := by
  have hblock : block.length = s.wptr.toNat := length_of_readCells hb
  have hread : s.n.toNat - s.wptr.toNat ≤ s.inst.lp := by omega
  have hlen : (s.inst.p.take (s.n.toNat - s.wptr.toNat)).length = s.n.toNat - s.wptr.toNat :=
    List.length_take_of_le hread
  refine ⟨_, ?_, runsAlone_microOp hr hq nofun (execPad_next_iff.2 ⟨hread, .inr (by omega), rfl⟩)⟩
  have hput := readCells_putAll_append (xs := s.inst.p.take (s.n.toNat - s.wptr.toNat)) hb
  rwa [hlen, Nat.add_sub_cancel' hw, ← hblock, ← paddedBlock, hblock] at hput

theorem runsAlone_pack {bytes : List Byte} (hr : s.resetLine = []) (hq : s.seq = .pack)
    (hn : s.n.toNat ≤ s.inst.nmax.toNat) (h8 : s.n.toNat % 8 = 0)
    (hb : s.readB 0 s.n.toNat = bytes.map some) :
    ∃ a, readCells a 0 (wordCount s) = (packWords (wordCount s) bytes).map some ∧
      RunsAlone 1 s { s with a := a, rnd := roundStart, seq := .mix } := by
  have hw : 8 * wordCount s = s.n.toNat := by rw [wordCount]; omega
  refine ⟨_, ?_, runsAlone_microOp hr hq nofun
    (execPack_next_iff.2 ⟨Nat.div_le_div_right hn, rfl⟩)⟩
  rw [hw, hb, packCells_map_some]
  exact readCells_putAll_zero _ (packWords_length _ _)

theorem runsAlone_mix {words : List Word} (hr : s.resetLine = []) (hq : s.seq = .mix)
    (hn : s.n.toNat ≤ s.inst.nmax.toNat) (ha : s.readA 0 (wordCount s) = words.map some) :
    ∃ a p,
      readCells a 0 (wordCount s) = (words.map fun w => mixword s.inst.num w s.rnd).map some ∧
      readCells p 0 (wordCount s) = (words.map fun w => mixword s.inst.num w s.rnd).map some ∧
      RunsAlone 1 s { s with a := a, p := p, seq := .diffuse } := by
  have hlen : (words.map fun w => mixword s.inst.num w s.rnd).length = wordCount s := by
    rw [List.length_map]
    exact length_of_readCells ha
  refine ⟨_, _, ?_, ?_, runsAlone_microOp hr hq nofun
    (execMix_next_iff.2 ⟨Nat.div_le_div_right hn, rfl⟩)⟩
  all_goals
    rw [ha, map_optionMap_some]
    exact readCells_putAll_zero _ hlen

theorem runsAlone_diffuse {bytes : List Byte} {words : List Word} (hr : s.resetLine = [])
    (hq : s.seq = .diffuse) (hn : s.n.toNat ≤ s.inst.nmax.toNat)
    (hh : s.readH 0 s.n.toNat = bytes.map some) (ha : s.readA 0 (wordCount s) = words.map some) :
    ∃ h, readCells h 0 s.n.toNat = (bytes.map (diffuse words)).map some ∧
      RunsAlone 1 s { s with
        h := h, rnd := s.rnd + roundStep,
        seq := if s.rnd + roundStep ≤ roundBound then .mix else .fold } := by
  refine ⟨_, ?_, runsAlone_microOp hr hq nofun (execDiffuse_next_iff.2 ⟨hn, rfl⟩)⟩
  have hnew : (s.readH 0 s.n.toNat).map (diffuseCell (s.readA 0 (wordCount s))) =
      (bytes.map (diffuse words)).map some := by
    simp [hh, ha, diffuseCell_map_some]
  rw [hnew]
  exact readCells_putAll_zero _ (by rw [List.length_map]; exact length_of_readCells hh)

theorem foldWith_length {h r : List Byte} (mode : FoldMode) (hlen : h.length = r.length) :
    (foldWith mode h r).length = h.length := by
  cases mode <;> simp [foldWith, foldElementwise, foldCross, hlen]

/-- FOLD on values, for either MODE (R161, R162). -/
theorem exec_fold {bytes : List Byte} {words : List Word} (mode : FoldMode)
    (hn : s.n.toNat ≤ s.inst.nmax.toNat) (hh : s.readH 0 s.n.toNat = bytes.map some)
    (hp : s.readP 0 (wordCount s) = words.map some) :
    exec (microOp mode .fold) s =
      .next ({ s with
        h := s.h.putAll 0 ((foldWith mode bytes (serialise words)).map some) }.endAbsorb) := by
  cases mode with
  | elementwise =>
    rw [foldWith, ← foldElementwiseCells_map_some, ← hh, ← serialiseCells_map_some, ← hp]
    exact execFoldE_next_iff.2 ⟨(Nat.mul_div_le _ _).trans hn, rfl⟩
  | cross =>
    rw [foldWith, ← foldCrossCells_map_some, ← hh, ← serialiseCells_map_some, ← hp]
    exact execFoldX_next_iff.2 ⟨hn, rfl⟩

theorem runsAlone_fold {bytes : List Byte} {words : List Word} (hr : s.resetLine = [])
    (hq : s.seq = .fold) (hn : s.n.toNat ≤ s.inst.nmax.toNat) (h8 : s.n.toNat % 8 = 0)
    (hh : s.readH 0 s.n.toNat = bytes.map some) (hp : s.readP 0 (wordCount s) = words.map some) :
    ∃ h, readCells h 0 s.n.toNat = (foldWith s.mode bytes (serialise words)).map some ∧
      RunsAlone 1 s ({ s with h := h }.endAbsorb) := by
  have hbytes : bytes.length = s.n.toNat := length_of_readCells hh
  have hwords : words.length = wordCount s := length_of_readCells hp
  have hw : 8 * wordCount s = s.n.toNat := by rw [wordCount]; omega
  have hlen : (foldWith s.mode bytes (serialise words)).length = s.n.toNat := by
    rw [foldWith_length _ (by rw [serialise_length]; omega), hbytes]
  exact ⟨_, readCells_putAll_zero s.h hlen, runsAlone_microOp hr hq nofun (exec_fold _ hn hh hp)⟩

/-! ## The rounds -/

/-- MIX and DIFFUSE, once each: one round of R204. -/
theorem runsAlone_round {bytes : List Byte} {words : List Word} (hr : s.resetLine = [])
    (hq : s.seq = .mix) (hn : s.n.toNat ≤ s.inst.nmax.toNat)
    (hh : s.readH 0 s.n.toNat = bytes.map some) (ha : s.readA 0 (wordCount s) = words.map some) :
    ∃ h a p,
      readCells h 0 s.n.toNat =
        (bytes.map (diffuse (words.map fun w => mixword s.inst.num w s.rnd))).map some ∧
      readCells a 0 (wordCount s) = (words.map fun w => mixword s.inst.num w s.rnd).map some ∧
      readCells p 0 (wordCount s) = (words.map fun w => mixword s.inst.num w s.rnd).map some ∧
      RunsAlone 2 s { s with
        h := h, a := a, p := p, rnd := s.rnd + roundStep,
        seq := if s.rnd + roundStep ≤ roundBound then .mix else .fold } := by
  obtain ⟨a, p, ha', hp', hmix⟩ := runsAlone_mix hr hq hn ha
  obtain ⟨h, hh', hdiffuse⟩ :=
    runsAlone_diffuse (s := { s with a := a, p := p, seq := .diffuse }) hr rfl hn hh ha'
  exact ⟨h, a, p, hh', ha', hp', hmix.trans hdiffuse⟩

theorem mixRounds_cons (num : Config.NumUnit) (r : BitVec 7) (rs : List (BitVec 7))
    (words : List Word) :
    mixRounds num (r :: rs) words = (words.map fun w => mixword num w r) ::
      mixRounds num rs (words.map fun w => mixword num w r) := rfl

theorem mixRounds_getLastD_cons (num : Config.NumUnit) (r r' : BitVec 7) (rs : List (BitVec 7))
    (words : List Word) :
    (mixRounds num (r :: r' :: rs) words).getLastD [] =
      (mixRounds num (r' :: rs) (words.map fun w => mixword num w r)).getLastD [] := by
  rw [mixRounds_cons, mixRounds_cons, List.getLastD_cons, List.getLastD_cons, List.getLastD_cons]

theorem diffuseRounds_cons (words : List Word) (rounds : List (List Word)) :
    diffuseRounds (words :: rounds) = diffuseRounds rounds ∘ diffuse words := rfl

/-- From RND = r the round loop of R204 goes through the constants listed after r, and then leaves RND at
78. -/
def RoundLoop : BitVec 7 → List (BitVec 7) → Prop
  | r, [] => r + roundStep = 78
  | r, r' :: rs => r + roundStep = r' ∧ r' ≤ roundBound ∧ RoundLoop r' rs

/-- From 13, where PACK starts it, the loop goes through the five round constants (R8, R204). -/
theorem roundLoop_roundStart : RoundLoop roundStart [26, 39, 52, 65] := by
  simp only [RoundLoop]
  decide

/-- All the rounds from RND on: H has taken up the words of each, and p holds those of the last. -/
theorem runsAlone_rounds {rs : List (BitVec 7)} {bytes : List Byte} {words : List Word}
    (hloop : RoundLoop s.rnd rs) (hr : s.resetLine = []) (hq : s.seq = .mix)
    (hn : s.n.toNat ≤ s.inst.nmax.toNat) (hh : s.readH 0 s.n.toNat = bytes.map some)
    (ha : s.readA 0 (wordCount s) = words.map some) :
    ∃ h a p,
      readCells h 0 s.n.toNat =
        (bytes.map (diffuseRounds (mixRounds s.inst.num (s.rnd :: rs) words))).map some ∧
      readCells p 0 (wordCount s) =
        ((mixRounds s.inst.num (s.rnd :: rs) words).getLastD []).map some ∧
      RunsAlone (2 * (rs.length + 1)) s { s with
        h := h, a := a, p := p, rnd := 78, seq := .fold } := by
  induction rs generalizing s bytes words with
  | nil =>
    obtain ⟨h, a, p, hh', -, hp', hround⟩ := runsAlone_round hr hq hn hh ha
    have hend : s.rnd + roundStep = 78 := hloop
    rw [hend, if_neg (by decide)] at hround
    exact ⟨h, a, p, hh', hp', hround⟩
  | cons r rs ih =>
    obtain ⟨hnext, hle, hrest⟩ := hloop
    obtain ⟨h, a, p, hh', ha', -, hround⟩ := runsAlone_round hr hq hn hh ha
    rw [hnext, if_pos hle] at hround
    obtain ⟨h', a', p', hh'', hp'', hrounds⟩ :=
      ih (s := { s with h := h, a := a, p := p, rnd := r, seq := .mix }) hrest hr rfl hn hh' ha'
    refine ⟨h', a', p', ?_, ?_, ?_⟩
    · rw [mixRounds_cons, diffuseRounds_cons, ← List.map_map]
      exact hh''
    · rw [mixRounds_getLastD_cons]
      exact hp''
    · have hrun := hround.trans hrounds
      rwa [show 2 + 2 * (rs.length + 1) = 2 * ((r :: rs).length + 1) by simp; omega] at hrun

/-! ## ABSORB -/

theorem digest_eq_some_iff {bytes : List Byte} :
    s.digest = some bytes ↔ s.readH 0 s.n.toNat = bytes.map some :=
  valuesOf_eq_some_iff

theorem block_eq_some_iff {block : List Byte} :
    s.block = some block ↔ s.readB 0 s.wptr.toNat = block.map some :=
  valuesOf_eq_some_iff

/-- An open session's N is legal (R31). -/
theorem inv_legal_of_valid (h : s.Inv) (hv : s.valid = true) : legalSize s.inst s.n = true := by
  obtain ⟨-, -, -, ⟨hsession, -⟩, -⟩ := h
  exact (hsession hv).1

theorem length_serialise_blockRounds {inst : Config.Instance} {n : Nat} (h8 : n % 8 = 0)
    (d : List Byte) : (serialise ((blockRounds inst n d).getLastD [])).length = n := by
  simp [blockRounds, roundConstants, mixRounds, serialise_length, packWords_length]
  omega

/-- An accepted ABSORB: SEQ leaves IDLE, PAD, PACK, five rounds and FOLD run, and H holds what R176 gives
for the bytes pushed. -/
theorem runsAlone_absorb {bytes block : List Byte} (h : s.Inv) (hopen : s.SessionOpen)
    (hw : s.wptr ≠ 0) (hr : s.resetLine = []) (hp : s.pending = w :: rest)
    (hi : readOperation w.words = .ok .absorb) (hd : s.digest = some bytes)
    (hb : s.block = some block) :
    ∃ h' b a p,
      readCells h' 0 s.n.toNat =
        (absorbBlock s.inst s.n.toNat s.mode bytes block).map some ∧
      RunsAlone 14 s { s with
        h := h', b := b, a := a, p := p, wptr := 0, rnd := 78, seq := .idle,
        pending := rest, replies := .ok :: s.replies } := by
  obtain ⟨hv, hs⟩ := hopen
  obtain ⟨-, hlp⟩ := inv_nmax_bounds h
  obtain ⟨-, h8, hn⟩ := legalSize_iff.1 (inv_legal_of_valid h hv)
  have hw' := inv_wptr_le_n h
  rw [digest_eq_some_iff] at hd
  rw [block_eq_some_iff] at hb
  have hstart := runsAlone_operation hr hs hp hi (execAbsorb_accepted hv hw)
  obtain ⟨b, hb', hpad⟩ := runsAlone_pad (s := { s with seq := .pad }) hr rfl hw' hn hlp hb
  obtain ⟨a, ha, hpack⟩ := runsAlone_pack (s := { s with b := b, seq := .pack }) hr rfl hn h8 hb'
  obtain ⟨h₁, a₁, p₁, hh₁, hp₁, hrounds⟩ := runsAlone_rounds
    (s := { s with b := b, a := a, rnd := roundStart, seq := .mix }) roundLoop_roundStart hr rfl hn
    hd ha
  obtain ⟨h₂, hh₂, hfold⟩ := runsAlone_fold
    (s := { s with b := b, h := h₁, a := a₁, p := p₁, rnd := 78, seq := .fold }) hr rfl hn h8 hh₁ hp₁
  refine ⟨h₂, b, a₁, p₁, ?_, ?_⟩
  · have hlen : bytes.length = (serialise ((blockRounds s.inst s.n.toNat block).getLastD [])).length :=
      (length_of_readCells hd).trans (length_serialise_blockRounds h8 block).symm
    have hblock : blockRounds s.inst s.n.toNat block =
        mixRounds s.inst.num (roundStart :: [26, 39, 52, 65])
          (packWords (s.n.toNat / 8) (paddedBlock s.inst s.n.toNat block)) := rfl
    rw [← fold_diffuseRounds_eq_absorbBlock s.mode hlen, hblock]
    exact hh₂
  · have hrun := hstart.trans (hpad.trans (hpack.trans (hrounds.trans hfold)))
    rw [State.endAbsorb, State.respond] at hrun
    simp only [hp, List.tail_cons] at hrun
    exact hrun

end Sys2Proof.Machine


/-! SUPPORT. Scripts (R89 to R92): what a host's operations do one after the other, the pieces of a message,
and HASH of a legal size. -/

namespace Sys2Proof.Machine

variable {s t u : State} {w : Transaction} {ops ops' : List HostOp}

/-! ## Operations run to their end -/

/-- A host that comes to the operations `ops` in `s` is done with them in `t`, whatever its script says
next. -/
def Completes (ops : List HostOp) (s t : State) : Prop :=
  ∃ k, ∀ rest, runScript k (ops ++ rest) s = .next (rest, t)

theorem completes_nil (s : State) : Completes [] s s := ⟨0, fun _ => rfl⟩

theorem Completes.append (h : Completes ops s t) (h' : Completes ops' t u) :
    Completes (ops ++ ops') s u := by
  obtain ⟨j, hj⟩ := h
  obtain ⟨k, hk⟩ := h'
  refine ⟨j + k, fun rest => ?_⟩
  rw [List.append_assoc, runScript_add (hj _), hk]

theorem issueNext_inv (script : List HostOp) (h : s.Inv) : (issueNext script s).2.Inv := by
  by_cases hs : s.seq = .idle
  · rw [issueNext_frame]
    exact inv_host_frame h hs _ _ _
  · rw [issueNext_waits _ (.inl hs)]
    exact h

/-- The invariant holds all along a script (R5, R7, R27, R29 to R32). -/
theorem runScript_inv {k : Nat} {script rest : List HostOp} (h : s.Inv)
    (hrun : runScript k script s = .next (rest, t)) : t.Inv := by
  induction k generalizing script s with
  | zero =>
    cases hrun
    exact h
  | succ k ih =>
    obtain ⟨s', hstep⟩ := invariantStatesAlwaysStep _ (issueNext_inv script h)
    rw [runScript_succ hstep] at hrun
    exact ih (stepKeepsTheInvariant _ _ (issueNext_inv script h) hstep) hrun

theorem Completes.inv (h : Completes ops s t) (hs : s.Inv) : t.Inv := by
  obtain ⟨k, hk⟩ := h
  exact runScript_inv hs (hk [])

/-- The host issues its transaction and waits until it is complete (R60). -/
theorem completes_transaction {k : Nat} (hs : s.seq = .idle) (hp : s.pending = [])
    (h : RunsAlone (k + 1) { s with pending := [w] } t) : Completes [.transaction w] s t := by
  refine ⟨k + 1, fun rest => ?_⟩
  rw [← h rest]
  have hissue : issueNext ([.transaction w] ++ rest) s = (rest, { s with pending := [w] }) :=
    issueNext_issues _ _ hs hp
  have hwait := issueNext_waits (s := { s with pending := [w] }) rest (.inr nofun)
  simp only [runScript, hissue, hwait]

/-! ## DIGEST at the end of a script -/

theorem runScript_nil_of_run {k : Nat} (h : Host.Core.run core k s = .next t) :
    runScript k [] s = .next ([], t) := by
  induction k generalizing s with
  | zero =>
    cases h
    rfl
  | succ k ih =>
    cases hstep : step s with
    | next s' =>
      rw [runScript_succ (t := s') (by rwa [issueNext_nil]), issueNext_nil]
      exact ih ((run_succ_of_step (M := core) hstep).symm.trans h)
    | fault f =>
      have hstep' : core.step s = .fault f := hstep
      simp [Host.Core.run, hstep'] at h
    | refused r =>
      have hstep' : core.step s = .refused r := hstep
      simp [Host.Core.run, hstep'] at h

theorem step_quiet (hr : s.resetLine = []) (hs : s.seq = .idle) (hp : s.pending = []) :
    step s = .next s := by
  rw [step_of_noReset (by simp [hr]), drop_sample_of_noSamples hr,
    stepRun_of_fetch (fetch_quiet hs hp)]
  rfl

/-- DIGEST as the last line of a script: its reads, as many as CFG.N says when the host comes to it (R92).
The last step is an IDLE one, so that there is a step for the host's turn also where CFG.N is 0. -/
theorem runScript_digest (hs : s.seq = .idle) (hp : s.pending = [])
    (hrun : Host.Core.run core s.n.toNat { s with pending := digestOps s.n.toNat } = .next t)
    (htr : t.resetLine = []) (hts : t.seq = .idle) (htp : t.pending = []) :
    runScript (s.n.toNat + 1) [.digest] s = .next ([], t) := by
  have hissue : issueNext [.digest] s = ([], { s with pending := digestOps s.n.toNat }) :=
    issueNext_issues _ _ hs hp
  have hturn : runScript (s.n.toNat + 1) [.digest] s =
      runScript (s.n.toNat + 1) [] { s with pending := digestOps s.n.toNat } := by
    simp only [runScript, hissue, issueNext_nil]
  rw [hturn, runScript_add (runScript_nil_of_run hrun),
    runScript_succ (t := t) (by rw [issueNext_nil]; exact step_quiet htr hts htp), issueNext_nil]
  rfl

/-! ## The pieces of a message -/

theorem piecesUpTo_flatten {fuel n : Nat} {message : List Byte} (hn : 1 ≤ n)
    (hfuel : message.length ≤ fuel) : (piecesUpTo fuel n message).flatten = message := by
  induction fuel generalizing message with
  | zero =>
    rw [List.length_eq_zero_iff.1 (Nat.le_zero.1 hfuel)]
    rfl
  | succ fuel ih =>
    cases message with
    | nil => rfl
    | cons x xs =>
      rw [piecesUpTo, List.flatten_cons, ih (by simp at hfuel ⊢; omega), List.take_append_drop]

theorem mem_piecesUpTo {fuel n : Nat} {message piece : List Byte} (hn : 1 ≤ n)
    (h : piece ∈ piecesUpTo fuel n message) : piece ≠ [] ∧ piece.length ≤ n := by
  induction fuel generalizing message with
  | zero => cases h
  | succ fuel ih =>
    cases message with
    | nil => cases h
    | cons x xs =>
      rcases List.mem_cons.1 h with rfl | h
      · refine ⟨?_, List.length_take_le _ _⟩
        rw [ne_eq, List.take_eq_nil_iff]
        simp
        omega
      · exact ih h

/-- The pieces make up the message (R92, R256); an empty message has none, whatever the size. -/
theorem messagePieces_flatten {n : Nat} {message : List Byte} (h : 1 ≤ n ∨ message = []) :
    (messagePieces n message).flatten = message := by
  rcases h with hn | rfl
  · exact piecesUpTo_flatten hn (Nat.le_refl _)
  · rfl

/-! ## What the script's transactions are read as -/

/-- The word a script's CREATE is assembled to is CREATE's word (R82, R90). -/
theorem createOp_word {n m : Nat} (hn : n ≤ 65535) (hm : m ≤ 1) :
    BitVec.ofNat 32 (0x01000000 + m * 65536 + n) =
      createWord (BitVec.ofNat 16 n) (if m = 1 then .cross else .elementwise) := by
  refine BitVec.eq_of_toNat_eq ?_
  rw [createWord, toNat_append_eq_add, toNat_append_eq_add, toNat_append_eq_add,
    BitVec.toNat_ofNat, BitVec.toNat_ofNat]
  obtain rfl | rfl : m = 0 ∨ m = 1 := by omega
  · simp [foldModeBit]
    omega
  · simp [foldModeBit]
    omega

theorem readOperation_createOp {n m : Nat} (hn : n ≤ 65535) (hm : m ≤ 1) :
    readOperation (createOp n m).words =
      .ok (.create (BitVec.ofNat 16 n) (if m = 1 then .cross else .elementwise)) := by
  rw [createOp, createOp_word hn hm]
  exact readOperation_cmdWrite (decodeCommand_createWord _ _)

theorem readOperation_absorbOp : readOperation absorbOp.words = .ok .absorb :=
  readOperation_cmdWrite decodeCommand_absorbWord

theorem readOperation_pushOp (b : Byte) : readOperation (pushOp b).words = .ok (.push b) := by
  have hheader : (pushOp b).header = 0x80020 := (header_eq_iff (u := pushOp 0)).2 ⟨rfl, rfl, rfl⟩
  have hdata : (pushOp b).data.setWidth 32 = b.setWidth 32 :=
    BitVec.setWidth_setWidth_of_le _ (by decide)
  simp only [readOperation, Transaction.words, hheader, hdata, decode, decodeTransaction_push]

/-! ## A session between two operations of the host -/

/-- A session of a host that waits for nothing: its parameters, H[0, N), the bytes pushed, and the replies
given so far. -/
structure SessionHolds (inst : Config.Instance) (n : Nat) (mode : FoldMode) (h d : List Byte)
    (replies : List Reply) (s : State) : Prop where
  inv : s.Inv
  isOpen : s.SessionOpen
  noPending : s.pending = []
  noSamples : s.resetLine = []
  inst_eq : s.inst = inst
  n_eq : s.n.toNat = n
  mode_eq : s.mode = mode
  readH_eq : s.readH 0 s.n.toNat = h.map some
  readB_eq : s.readB 0 s.wptr.toNat = d.map some
  replies_eq : s.replies = replies

section

variable {inst : Config.Instance} {n : Nat} {mode : FoldMode} {h d : List Byte}
  {replies : List Reply}

/-- The transaction is issued: the state the machine's step starts from has the invariant as well. -/
theorem SessionHolds.inv_issued (hs : SessionHolds inst n mode h d replies s)
    (ts : List Transaction) : { s with pending := ts }.Inv :=
  inv_host_frame hs.inv hs.isOpen.2 ts s.replies s.resetLine

theorem SessionHolds.length_block (hs : SessionHolds inst n mode h d replies s) :
    d.length = s.wptr.toNat :=
  length_of_readCells hs.readB_eq

/-- CREATE of a legal size: H is P[0, N) and nothing is pushed (R171). -/
theorem completes_createOp {m : Nat} (hinv : s.Inv) (hs : s.seq = .idle) (hr : s.resetLine = [])
    (hp : s.pending = []) (h8 : 8 ≤ n) (hmod : n % 8 = 0) (hn : n ≤ s.inst.nmax.toNat)
    (hm : m ≤ 1) :
    ∃ t, Completes [.transaction (createOp n m)] s t ∧
      SessionHolds s.inst n (if m = 1 then .cross else .elementwise) (s.inst.p.take n) []
        (.ok :: s.replies) t := by
  obtain ⟨h4096, hlp⟩ := inv_nmax_bounds hinv
  have hN : (BitVec.ofNat 16 n).toNat = n := by
    rw [BitVec.toNat_ofNat]
    omega
  obtain ⟨t, hexec, hread, -, ht⟩ := execCreate_opens (n := BitVec.ofNat 16 n)
    (s := { s with pending := [createOp n m] }) (if m = 1 then .cross else .elementwise)
    (by rwa [hN]) (by rwa [hN]) (by rwa [hN]) hlp
  generalize t.h = h' at hread ht
  subst ht
  have hrun := completes_transaction (k := 0) hs hp
    (runsAlone_operation hr hs rfl (readOperation_createOp (by omega) hm) hexec)
  refine ⟨_, hrun, hrun.inv hinv, ⟨rfl, hs⟩, rfl, hr, rfl, hN, rfl, ?_, rfl, rfl⟩
  refine readCells_eq_map_some_iff.2 ⟨?_, fun i hi => ?_⟩
  · rw [hN]
    exact List.length_take_of_le (hn.trans hlp)
  · have hi' : i < n := hN ▸ hi
    rw [Nat.zero_add, hread i hi, List.getElem?_take_of_lt hi']

/-- PUSH of a byte the block has room for (R172). -/
theorem completes_pushOp (hs : SessionHolds inst n mode h d replies s) (hroom : d.length < n)
    (b : Byte) :
    ∃ t, Completes [.transaction (pushOp b)] s t ∧
      SessionHolds inst n mode h (d ++ [b]) (.ok :: replies) t := by
  have hinv := hs.inv
  have hlen := hs.length_block
  have hb := hs.readB_eq
  obtain ⟨-, ⟨hv, hidle⟩, hp, hr, rfl, rfl, rfl, hh, -, rfl⟩ := hs
  have hcap := inv_n_le_nmax hinv
  have hne : s.wptr ≠ s.n := by
    intro e
    rw [e] at hlen
    omega
  have hsucc : (s.wptr + 1).toNat = s.wptr.toNat + [b].length := by
    have := s.n.isLt
    rw [BitVec.toNat_add]
    exact Nat.mod_eq_of_lt (by simp; omega)
  have hexec := (execPush_accepted_next_iff (s := { s with pending := [pushOp b] }) (b := b) hv
    hne).2 ⟨by simp only; omega, rfl⟩
  have hrun := completes_transaction (k := 0) hidle hp
    (runsAlone_operation hr hidle rfl (readOperation_pushOp b) hexec)
  refine ⟨_, hrun, hrun.inv hinv, ⟨hv, hidle⟩, rfl, hr, rfl, rfl, rfl, hh, ?_, rfl⟩
  have hput := readCells_putAll_append (xs := [b]) hb
  rw [← hsucc] at hput
  exact hput

theorem completes_pushOps (hs : SessionHolds inst n mode h d replies s) {bytes : List Byte}
    (hroom : d.length + bytes.length ≤ n) :
    ∃ t, Completes ((bytes.map pushOp).map .transaction) s t ∧
      SessionHolds inst n mode h (d ++ bytes) (List.replicate bytes.length .ok ++ replies) t := by
  induction bytes generalizing s d replies with
  | nil => exact ⟨s, completes_nil s, by simpa using hs⟩
  | cons b bytes ih =>
    rw [List.length_cons] at hroom
    obtain ⟨s', hpush, hs'⟩ := completes_pushOp hs (by omega) b
    obtain ⟨t, hpushes, ht⟩ := ih hs' (by simp; omega)
    refine ⟨t, hpush.append hpushes, ?_⟩
    rw [List.append_assoc, List.singleton_append] at ht
    rwa [List.length_cons, List.replicate_succ', List.append_assoc, List.singleton_append]

/-- ABSORB of a block of at least one byte (R174, R176). -/
theorem completes_absorbOp (hs : SessionHolds inst n mode h d replies s) (hd : d ≠ []) :
    ∃ t, Completes [.transaction absorbOp] s t ∧
      SessionHolds inst n mode (absorbBlock inst n mode h d) [] (.ok :: replies) t := by
  have hinv := hs.inv
  have hinv' := hs.inv_issued [absorbOp]
  have hlen := hs.length_block
  obtain ⟨-, hopen, hp, hr, rfl, rfl, rfl, hh, hb, rfl⟩ := hs
  have hw : s.wptr ≠ 0 := by
    intro e
    rw [e] at hlen
    exact hd (List.length_eq_zero_iff.1 hlen)
  obtain ⟨h', b', a', p', hread, habsorb⟩ :=
    runsAlone_absorb (s := { s with pending := [absorbOp] }) hinv' hopen hw hr rfl
      readOperation_absorbOp (digest_eq_some_iff.2 hh) (block_eq_some_iff.2 hb)
  have hrun := completes_transaction hopen.2 hp habsorb
  exact ⟨_, hrun, hrun.inv hinv, ⟨hopen.1, rfl⟩, rfl, hr, rfl, rfl, rfl, hread, rfl, rfl⟩

/-- One BLOCK (R91). -/
theorem completes_blockOps (hs : SessionHolds inst n mode h [] replies s) {piece : List Byte}
    (hne : piece ≠ []) (hlen : piece.length ≤ n) :
    ∃ t, Completes ((blockOps piece).map .transaction) s t ∧
      SessionHolds inst n mode (absorbBlock inst n mode h piece) []
        (List.replicate (blockOps piece).length .ok ++ replies) t := by
  obtain ⟨s', hpushes, hs'⟩ := completes_pushOps hs (bytes := piece) (by simpa using hlen)
  rw [List.nil_append] at hs'
  obtain ⟨t, habsorb, ht⟩ := completes_absorbOp hs' hne
  refine ⟨t, ?_, ?_⟩
  · rw [blockOps, List.map_append]
    exact hpushes.append habsorb
  · rw [blockOps, List.length_append, List.length_map, List.length_singleton, List.replicate_succ]
    exact ht

/-- The BLOCKs of a message, one after the other. -/
theorem completes_blocks (hs : SessionHolds inst n mode h [] replies s)
    {pieces : List (List Byte)} (hpieces : ∀ piece ∈ pieces, piece ≠ [] ∧ piece.length ≤ n) :
    ∃ t, Completes ((pieces.flatMap blockOps).map .transaction) s t ∧
      SessionHolds inst n mode (pieces.foldl (absorbBlock inst n mode) h) []
        (List.replicate (pieces.flatMap blockOps).length .ok ++ replies) t := by
  induction pieces generalizing s h replies with
  | nil => exact ⟨s, completes_nil s, hs⟩
  | cons piece pieces ih =>
    obtain ⟨hne, hlen⟩ := hpieces piece (.head _)
    obtain ⟨s', hblock, hs'⟩ := completes_blockOps hs hne hlen
    obtain ⟨t, hblocks, ht⟩ := ih hs' fun piece' hmem => hpieces piece' (.tail _ hmem)
    refine ⟨t, ?_, ?_⟩
    · rw [List.flatMap_cons, List.map_append]
      exact hblock.append hblocks
    · rw [← List.append_assoc, List.replicate_append_replicate, Nat.add_comm,
        ← List.length_append, ← List.flatMap_cons] at ht
      exact ht

/-- DIGEST of the session ends the script with the bytes of H (R92, R180). -/
theorem runScript_digest_of_session (hs : SessionHolds inst n mode h d replies s) :
    runScript (s.n.toNat + 1) [.digest] s = .next ([], { s with
      pending := [], replies := (h.map Reply.byte).reverse ++ replies }) := by
  have hinv' := hs.inv_issued (digestOps s.n.toNat)
  obtain ⟨-, hopen, hp, hr, rfl, rfl, rfl, hh, -, rfl⟩ := hs
  obtain ⟨bytes, hbytes, hrun⟩ :=
    digestReadsTheWholeState _ [] hinv' hopen hr (List.append_nil _).symm
  obtain rfl : bytes = h := Option.some.inj (hbytes.symm.trans (digest_eq_some_iff.2 hh))
  exact runScript_digest hopen.2 hp hrun hr hopen.2 rfl

end

theorem length_flatMap_blockOps (pieces : List (List Byte)) :
    (pieces.flatMap blockOps).length = pieces.flatten.length + pieces.length := by
  induction pieces with
  | nil => rfl
  | cons piece pieces ih =>
    rw [List.flatMap_cons, List.length_append, ih]
    simp [blockOps]
    omega

/-- The replies to the writes of HASH: one for CREATE, one per byte and one per piece. -/
theorem replies_of_hash {n : Nat} {message : List Byte} (h : 1 ≤ n ∨ message = [])
    (replies : List Reply) :
    List.replicate ((messagePieces n message).flatMap blockOps).length Reply.ok ++ .ok :: replies =
      List.replicate (1 + message.length + (messagePieces n message).length) .ok ++ replies := by
  rw [length_flatMap_blockOps, messagePieces_flatten h, List.append_cons, ← List.replicate_succ',
    Nat.add_assoc 1, Nat.add_comm 1]

/-- Settles O43: CREATE opens the session, each piece is pushed and absorbed, and DIGEST reads H. -/
theorem hashReturnsTheDigestOfItsMessage : Obligations.HashReturnsTheDigestOfItsMessage := by
  intro s n m message hinv hs hr hp h8 hmod hn hm
  obtain ⟨s₁, hcreate, hs₁⟩ := completes_createOp hinv hs hr hp h8 hmod hn hm
  obtain ⟨s₂, hblocks, hs₂⟩ := completes_blocks hs₁ (pieces := messagePieces n message)
    fun piece hmem => mem_piecesUpTo (by omega) hmem
  obtain ⟨k, hk⟩ := hcreate.append hblocks
  have hdigest := runScript_digest_of_session hs₂
  refine ⟨k + (s₂.n.toNat + 1), _, (runScript_add (hk [.digest])).trans hdigest, hs₂.isOpen, ?_,
    rfl, ?_⟩
  · obtain ⟨-, -, -, ⟨hst, -⟩, -⟩ := hs₂.inv
    exact (hst hs₂.isOpen.1).2
  · rw [List.append_assoc, ← replies_of_hash (.inl (by omega))]
    rfl

end Sys2Proof.Machine


/-! SUPPORT. HASH of a size CREATE refuses (log 12): every write that follows raises into a session already
lost, and every read of DIGEST is outside the window. -/

namespace Sys2Proof.Machine

variable {s : State} {w : Transaction} {rest : List Transaction}

/-! ## A session lost -/

/-- The session is lost with the exception recorded, and the host waits for nothing. -/
structure SessionLost (s : State) : Prop where
  invalid : s.valid = false
  recorded : s.err ≠ .noError
  idle : s.seq = .idle
  noPending : s.pending = []
  noSamples : s.resetLine = []

/-- Exception entry loses the session (R226). -/
theorem sessionLost_takeException {e : ErrCode} (he : e ≠ .noError) (info : Reg) (hs : s.seq = .idle)
    (hp : s.pending = []) (hr : s.resetLine = []) : SessionLost (s.takeException e info) := by
  refine ⟨rfl, ?_, hs, hp, hr⟩
  rw [State.takeException_err]
  split_ifs with h0
  · exact he
  · exact h0

theorem SessionLost.withReplies (h : SessionLost s) (replies : List Reply) :
    SessionLost { s with replies := replies } :=
  ⟨h.invalid, h.recorded, h.idle, h.noPending, h.noSamples⟩

/-- A further exception records nothing (R226). -/
theorem takeException_of_recorded (hv : s.valid = false) (he : s.err ≠ .noError) (e : ErrCode)
    (info : Reg) : s.takeException e info = s := by
  rw [State.takeException, if_neg he, if_neg he, ← hv]

/-- The one transaction the host has issued is answered. -/
theorem respond_issued (hp : s.pending = []) (w : Transaction) (r : Reply) :
    ({ s with pending := [w] } : State).respond r = { s with replies := r :: s.replies } := by
  simp only [State.respond, List.tail_cons, hp]

/-- CREATE of a size it refuses raises InvalidConfig with its word (R170, R171). -/
theorem completes_createOp_refused {n m : Nat} (hs : s.seq = .idle) (hp : s.pending = [])
    (hr : s.resetLine = []) (hn : n ≤ 65535) (hm : m ≤ 1)
    (hbad : n < 8 ∨ n % 8 ≠ 0 ∨ s.inst.nmax.toNat < n) :
    Completes [.transaction (createOp n m)] s
      { s.takeException .invalidConfig (BitVec.ofNat 32 (0x01000000 + m * 65536 + n)) with
        replies := .ok :: s.replies } := by
  have hN : (BitVec.ofNat 16 n).toNat = n := by
    rw [BitVec.toNat_ofNat]
    omega
  have hl : legalSize s.inst (BitVec.ofNat 16 n) = false := by
    rw [Bool.eq_false_iff, ne_eq, legalSize_iff, hN]
    omega
  have hexec := execCreate_illegal (s := { s with pending := [createOp n m] })
    (mode := if m = 1 then .cross else .elementwise) hl
  have hraise := respond_issued (s := s.takeException .invalidConfig
    (BitVec.ofNat 32 (0x01000000 + m * 65536 + n))) hp (createOp n m) .ok
  rw [createOp_word hn hm] at hraise ⊢
  exact completes_transaction (k := 0) hs hp (runsAlone_operation hr hs rfl
    (readOperation_createOp hn hm) (hexec.trans (congrArg _ hraise)))

/-! ## The BLOCKs -/

/-- The transactions of a BLOCK: those that need a session (R172, R174). -/
def Transaction.NeedsSession (w : Transaction) : Prop :=
  readOperation w.words = .ok .absorb ∨ ∃ b, readOperation w.words = .ok (.push b)

theorem needsSession_of_mem_blocks {pieces : List (List Byte)}
    (h : w ∈ pieces.flatMap blockOps) : w.NeedsSession := by
  obtain ⟨piece, -, hw⟩ := List.mem_flatMap.1 h
  rcases List.mem_append.1 hw with hpush | habsorb
  · obtain ⟨b, -, rfl⟩ := List.mem_map.1 hpush
    exact .inr ⟨b, readOperation_pushOp b⟩
  · rw [List.mem_singleton.1 habsorb]
    exact .inl readOperation_absorbOp

/-- A PUSH or an ABSORB is answered OK, and does nothing else (R172, R174, R226). -/
theorem SessionLost.completes (h : SessionLost s) (hw : w.NeedsSession) :
    Completes [.transaction w] s { s with replies := .ok :: s.replies } := by
  have hraise (e : ErrCode) (info : Reg) : ({ s with pending := [w] } : State).raise e info =
      { s with replies := .ok :: s.replies } := by
    rw [State.raise, takeException_of_recorded (s := { s with pending := [w] }) h.invalid h.recorded,
      respond_issued h.noPending]
  refine completes_transaction (k := 0) h.idle h.noPending ?_
  rcases hw with habsorb | ⟨b, hpush⟩
  · rw [← hraise .noSession absorbWord]
    exact runsAlone_operation h.noSamples h.idle rfl habsorb (if_pos h.invalid)
  · rw [← hraise .noSession (b.setWidth 32)]
    exact runsAlone_operation h.noSamples h.idle rfl hpush (if_pos h.invalid)

theorem SessionLost.completes_all (h : SessionLost s) {ws : List Transaction}
    (hws : ∀ w ∈ ws, w.NeedsSession) :
    Completes (ws.map .transaction) s
      { s with replies := List.replicate ws.length .ok ++ s.replies } := by
  induction ws generalizing s with
  | nil => exact completes_nil s
  | cons w ws ih =>
    have hfirst := h.completes (hws w (.head _))
    have hothers := ih (h.withReplies (.ok :: s.replies)) fun w' hmem => hws w' (.tail _ hmem)
    rw [List.length_cons, List.replicate_succ', List.append_assoc, List.singleton_append]
    exact hfirst.append hothers

/-! ## DIGEST -/

/-- Transactions R55 does not make legal, one after the other (R56, R223). -/
theorem run_illegal_transactions {ts : List Transaction} (hs : s.seq = .idle)
    (hr : s.resetLine = []) (hp : s.pending = ts ++ rest) (hts : ∀ t ∈ ts, ¬ s.legalAccess t) :
    Host.Core.run core ts.length s = .next { s with
      pending := rest, replies := List.replicate ts.length .busError ++ s.replies } := by
  induction ts generalizing s with
  | nil =>
    rw [List.nil_append] at hp
    rw [← hp]
    rfl
  | cons t ts ih =>
    have hstep := illegalTransactionChangesNothing s t (ts ++ rest) (by simp [hr]) hs hp
      (hts t (.head _))
    rw [hr, List.tail_nil, ← hr] at hstep
    have hothers := ih
      (s := { s with pending := ts ++ rest, replies := .busError :: s.replies }) hs hr rfl
      fun t' hmem => hts t' (.tail _ hmem)
    rw [List.length_cons, List.replicate_succ', List.append_assoc, List.singleton_append]
    exact (run_succ_of_step (M := core) hstep).trans hothers

/-- Without a session no byte of the window of H may be read (R55). -/
theorem not_legalAccess_of_mem_digestOps {n : Nat} (hv : s.valid = false) (hw : w ∈ digestOps n) :
    ¬ s.legalAccess w := by
  obtain ⟨k, -, rfl⟩ := List.mem_map.1 hw
  simp [State.legalAccess, rdhOp, memRead, hv]

/-- DIGEST makes the reads CFG.N says, and each gets BusError (R178). -/
theorem SessionLost.runScript_digest (h : SessionLost s) :
    runScript (s.n.toNat + 1) [.digest] s = .next ([], { s with
      replies := List.replicate s.n.toNat .busError ++ s.replies }) := by
  have hrun := run_illegal_transactions (s := { s with pending := digestOps s.n.toNat }) h.idle
    h.noSamples (List.append_nil _).symm fun w => not_legalAccess_of_mem_digestOps h.invalid
  have hlen : (digestOps s.n.toNat).length = s.n.toNat := by simp [digestOps]
  rw [hlen] at hrun
  rw [Machine.runScript_digest h.idle h.noPending hrun h.noSamples h.idle rfl]
  simp only [h.noPending]

/-- Settles O53: CREATE raises InvalidConfig, and what follows changes the replies only. -/
theorem hashOfARefusedSizeReadsNothing : Obligations.HashOfARefusedSizeReadsNothing := by
  intro s n m message _ hs hr hp hmessage hn hm hbad
  have hcreate := completes_createOp_refused hs hp hr hn hm hbad
  have hlost := (sessionLost_takeException (e := .invalidConfig) nofun
    (BitVec.ofNat 32 (0x01000000 + m * 65536 + n)) hs hp hr).withReplies (.ok :: s.replies)
  have hblocks := hlost.completes_all (ws := (messagePieces n message).flatMap blockOps)
    fun w => needsSession_of_mem_blocks
  obtain ⟨k, hk⟩ := hcreate.append hblocks
  refine ⟨k + (s.n.toNat + 1), _,
    (runScript_add (hk [.digest])).trans (hlost.withReplies _).runScript_digest, ?_⟩
  rw [List.append_assoc, ← replies_of_hash hmessage]
  rfl

end Sys2Proof.Machine

/-! SUPPORT. PAD and PACK: the padded block, what PAD writes, and the bytes of a packed word (R101 to R103). -/

namespace Sys2Proof.Machine

/-! ## The padded block -/

/-- A full block is padded with nothing (R101). -/
theorem paddedBlock_of_full {inst : Config.Instance} {n : Nat} {d : List Byte} (h : n ≤ d.length) :
    paddedBlock inst n d = d := by
  rw [paddedBlock, Nat.sub_eq_zero_of_le h, List.take_zero, List.append_nil]

theorem paddedBlock_length {inst : Config.Instance} {n : Nat} {d : List Byte} (hd : d.length ≤ n)
    (hlp : n ≤ inst.lp) : (paddedBlock inst n d).length = n := by
  have hp : n - d.length ≤ inst.p.length := (Nat.sub_le n _).trans hlp
  rw [paddedBlock, List.length_append, List.length_take_of_le hp, Nat.add_sub_cancel' hd]

/-- A block enters the digest only through its padded block (R176). -/
theorem absorbBlock_congr_paddedBlock {inst : Config.Instance} {n : Nat} {d e : List Byte}
    (h : paddedBlock inst n d = paddedBlock inst n e) (mode : FoldMode) (bytes : List Byte) :
    absorbBlock inst n mode bytes d = absorbBlock inst n mode bytes e := by
  have hrounds : blockRounds inst n d = blockRounds inst n e := by rw [blockRounds, h, ← blockRounds]
  simp only [absorbBlock, blockByte, hrounds]

/-- Settles O46: the block with its padding spelled out is the padded block itself, which has N bytes and
so is padded with nothing more. -/
theorem paddingIsNotLengthEncoding : Obligations.PaddingIsNotLengthEncoding := by
  intro inst n mode h d _ hd hlp
  have hfull : n ≤ (paddedBlock inst n d).length := (paddedBlock_length hd hlp).ge
  exact absorbBlock_congr_paddedBlock (paddedBlock_of_full hfull) mode h

/-! ## PAD -/

/-- Settles O20: PAD is one write of the N - L bytes at L, which lie in P and in B. -/
theorem padFillsTheBlockFromP : Obligations.PadFillsTheBlockFromP := by
  intro s hw hn hlp
  have hread : s.n.toNat - s.wptr.toNat ≤ s.inst.lp := by omega
  have hlen : (s.inst.p.take (s.n.toNat - s.wptr.toNat)).length = s.n.toNat - s.wptr.toNat :=
    List.length_take_of_le hread
  refine ⟨_, execPad_next_iff.2 ⟨hread, .inr (by omega), rfl⟩, fun j hj => ?_, fun i hi => ?_, rfl⟩
  · rw [Cells.read_putAll_some _ _ _ _ (by omega), List.getElem?_take_of_lt hj]
  · refine Cells.read_putAll_outside _ _ _ _ ?_
    rw [List.length_map]
    omega

/-! ## PACK -/

/-- The bytes of a group do not overlap in its word, so the sum of R103 carries nothing. -/
theorem byte_add_shiftLeft (x : Byte) (w : Word) :
    x.setWidth 64 + (w <<< 8) = x.setWidth 64 ||| (w <<< 8) := by
  refine BitVec.add_eq_or_of_and_eq_zero _ _ (BitVec.eq_of_getLsbD_eq fun i hi => ?_)
  by_cases h : i < 8
  · simp [h]
  · simp [BitVec.getLsbD_of_ge x i (by omega)]

theorem extractLsb'_byte_add_zero (x : Byte) (w : Word) :
    (x.setWidth 64 + (w <<< 8)).extractLsb' 0 8 = x := by
  rw [byte_add_shiftLeft]
  refine BitVec.eq_of_getLsbD_eq fun i hi => ?_
  have hlt : i < 64 := by omega
  simp [hi, hlt]

theorem extractLsb'_byte_add_succ (x : Byte) (w : Word) {m : Nat} (h : m < 7) :
    (x.setWidth 64 + (w <<< 8)).extractLsb' (8 * (m + 1)) 8 = w.extractLsb' (8 * m) 8 := by
  rw [byte_add_shiftLeft]
  refine BitVec.eq_of_getLsbD_eq fun i hi => ?_
  have hx : x.getLsbD (8 * (m + 1) + i) = false := BitVec.getLsbD_of_ge x _ (by omega)
  have hlt : 8 * (m + 1) + i < 64 := by omega
  have hge : ¬ 8 * (m + 1) + i < 8 := by omega
  have hsub : 8 * (m + 1) + i - 8 = 8 * m + i := by omega
  simp only [BitVec.getLsbD_extractLsb', BitVec.getLsbD_or, BitVec.getLsbD_setWidth,
    BitVec.getLsbD_shiftLeft, hx, hlt, hge, hsub, decide_true, decide_false, Bool.and_false,
    Bool.false_or, Bool.not_false, Bool.true_and]

/-- Byte m of a group of at most eight is bits 8m to 8m+7 of its word (R103). -/
theorem getElem?_of_packGroup {xs : List Byte} {m : Nat} (hlen : xs.length ≤ 8)
    (hm : m < xs.length) : xs[m]? = some ((packGroup xs).extractLsb' (8 * m) 8) := by
  induction xs generalizing m with
  | nil => cases hm
  | cons x xs ih =>
    rw [List.length_cons] at hlen hm
    rw [packGroup]
    cases m with
    | zero => rw [List.getElem?_cons_zero, Nat.mul_zero, extractLsb'_byte_add_zero]
    | succ m =>
      rw [List.getElem?_cons_succ, extractLsb'_byte_add_succ x _ (by omega),
        ih (by omega) (by omega)]

/-- Eight cells that hold values pack into the word whose bytes they are, the first the lowest (R103). -/
theorem packGroupCells_of_filled {c : Cells Byte} {lo : Nat}
    (h : ∀ m, m < 8 → (c.read (lo + m)).isSome = true) :
    ∃ w, packGroupCells (readCells c lo 8) = some w ∧
      ∀ m, m < 8 → c.read (lo + m) = some (w.extractLsb' (8 * m) 8) := by
  obtain ⟨xs, hxs⟩ := readCells_of_filled h
  obtain ⟨hlen, hread⟩ := readCells_eq_map_some_iff.1 hxs
  refine ⟨packGroup xs, by rw [hxs, packGroupCells_map_some], fun m hm => ?_⟩
  rw [hread m hm, getElem?_of_packGroup hlen.le (by omega)]

/-- Settles O21: a[k] is the word of the eight cells of B from 8k on. -/
theorem packLaysBytesLittleEndian : Obligations.PackLaysBytesLittleEndian := by
  intro s hb hn
  refine ⟨_, execPack_next_iff.2 ⟨Nat.div_le_div_right hn, rfl⟩, fun k hk => ?_, fun k hk => ?_, rfl⟩
  · obtain ⟨w, hw, hbytes⟩ := packGroupCells_of_filled (c := s.b) (lo := 8 * k)
      fun m hm => Cells.filled_iff.1 hb _ (by omega)
    exact ⟨w, (read_pack hk).trans hw, hbytes⟩
  · exact Cells.read_putAll_outside _ _ _ _ (.inr (by simpa using hk))

end Sys2Proof.Machine

/-! SUPPORT. The rounding (R124, R125): the magnitudes of the data in the order of their patterns, and RN as
the choice between the two neighbours of an exact value. -/

namespace Sys2Proof.Machine

/-- The magnitude a pattern without its sign stands for, in units of 2^-1074 (R124). Unlike
`patternUnits` it goes on past the data of 64 bits, where an exact value may lie before it is rounded. -/
def magnitudeUnits (p : Nat) : Nat :=
  if p / 2 ^ 52 = 0 then p % 2 ^ 52 else (2 ^ 52 + p % 2 ^ 52) * 2 ^ (p / 2 ^ 52 - 1)

/-! ## Data and their magnitudes -/

theorem fExp_eq (u : F64) : fExp u = u.toNat % 2 ^ 63 / 2 ^ 52 := by
  rw [fExp, BitVec.extractLsb'_toNat, Nat.shiftRight_eq_div_pow]
  omega

theorem fUnits_eq (u : F64) : fUnits u = magnitudeUnits (u.toNat % 2 ^ 63) := by
  have hfrac : fFrac u = u.toNat % 2 ^ 63 % 2 ^ 52 := by
    rw [fFrac, BitVec.extractLsb'_toNat, Nat.shiftRight_zero]
    omega
  rw [fUnits, fExp_eq, hfrac, magnitudeUnits]

theorem fFinite_iff (u : F64) : fFinite u = true ↔ u.toNat % 2 ^ 63 < infPattern := by
  rw [fFinite, bne_iff_ne, fExp_eq, infPattern]
  omega

theorem fNaN_of_fFinite {u : F64} (h : fFinite u = true) : fNaN u = false := by
  rw [fFinite, bne_iff_ne] at h
  simp [fNaN, h]

theorem patternUnits_eq {p : Nat} (h : p < infPattern) : patternUnits p = magnitudeUnits p := by
  rw [infPattern] at h
  rw [patternUnits, fUnits_eq, BitVec.toNat_ofNat, show p % 2 ^ 64 % 2 ^ 63 = p by omega]

/-- A significand k of at most 53 bits at the place q, subnormal only at the lowest place: a carry into
2^53 moves into the exponent field by itself. -/
theorem magnitudeUnits_significand {q k : Nat} (hk : k ≤ 2 ^ 53) (hq : q = 0 ∨ 2 ^ 52 ≤ k) :
    magnitudeUnits (q * 2 ^ 52 + k) = k * 2 ^ q := by
  rcases Nat.lt_or_ge k (2 ^ 52) with hsub | hnormal
  · obtain rfl : q = 0 := by omega
    rw [magnitudeUnits, if_pos (by omega)]
    omega
  · rw [magnitudeUnits, if_neg (by omega)]
    rcases Nat.lt_or_ge k (2 ^ 53) with hlt | hcarry
    · rw [show (q * 2 ^ 52 + k) / 2 ^ 52 - 1 = q by omega,
        show 2 ^ 52 + (q * 2 ^ 52 + k) % 2 ^ 52 = k by omega]
    · obtain rfl : k = 2 ^ 53 := by omega
      rw [show (q * 2 ^ 52 + 2 ^ 53) / 2 ^ 52 - 1 = 1 + q by omega,
        show 2 ^ 52 + (q * 2 ^ 52 + 2 ^ 53) % 2 ^ 52 = 2 ^ 52 by omega, Nat.pow_add,
        ← Nat.mul_assoc, ← Nat.pow_succ]

theorem exists_significand (p : Nat) :
    ∃ q k, p = q * 2 ^ 52 + k ∧ k < 2 ^ 53 ∧ (q = 0 ∨ 2 ^ 52 ≤ k) :=
  ⟨p / 2 ^ 52 - 1, p - (p / 2 ^ 52 - 1) * 2 ^ 52, by omega, by omega, by omega⟩

theorem magnitudeUnits_strictMono : StrictMono magnitudeUnits := by
  refine strictMono_nat_of_lt_succ fun p => ?_
  obtain ⟨q, k, rfl, hk, hq⟩ := exists_significand p
  rw [Nat.add_assoc, magnitudeUnits_significand hk.le hq,
    magnitudeUnits_significand (by omega) (by omega)]
  exact Nat.mul_lt_mul_of_pos_right (Nat.lt_succ_self k) (Nat.two_pow_pos q)

theorem magnitudeUnits_mul_le {i j : Nat} (h : i ≤ j) (den : Nat) :
    magnitudeUnits i * den ≤ magnitudeUnits j * den :=
  Nat.mul_le_mul_right den (magnitudeUnits_strictMono.monotone h)

theorem magnitudeUnits_mul_lt_succ (p : Nat) {den : Nat} (hd : 0 < den) :
    magnitudeUnits p * den < magnitudeUnits (p + 1) * den :=
  Nat.mul_lt_mul_of_pos_right (magnitudeUnits_strictMono (Nat.lt_succ_self p)) hd

/-- The pattern of 2^j. -/
theorem magnitudeUnits_two_pow (j : Nat) : magnitudeUnits ((1023 + j) * 2 ^ 52) = 2 ^ j * fScale := by
  have hsplit : (1023 + j) * 2 ^ 52 = (1022 + j) * 2 ^ 52 + 2 ^ 52 := by omega
  rw [hsplit, magnitudeUnits_significand (by omega) (.inr le_rfl), fScale, ← Nat.pow_add,
    ← Nat.pow_add, scaleBits]
  congr 1
  omega

/-- Every product of a number of at most 53 bits and a power of two is the magnitude of a pattern. -/
theorem exists_magnitudeUnits_eq {k : Nat} (hk : k ≤ 2 ^ 53) (q : Nat) :
    ∃ p, magnitudeUnits p = k * 2 ^ q := by
  induction q generalizing k with
  | zero => exact ⟨_, magnitudeUnits_significand hk (.inl rfl)⟩
  | succ q ih =>
    rcases Nat.lt_or_ge k (2 ^ 52) with hsub | hnormal
    · obtain ⟨p, hp⟩ := ih (k := k * 2) (by omega)
      exact ⟨p, by rw [hp, Nat.pow_succ', Nat.mul_assoc]⟩
    · exact ⟨_, magnitudeUnits_significand hk (.inr hnormal)⟩

/-! ## The rounding -/

/-- The exact value num / den lies beyond the midpoint of the data of patterns p and p + 1, or on it with
p odd. -/
def RoundsUp (p num den : Nat) : Prop :=
  (magnitudeUnits p + magnitudeUnits (p + 1)) * den < 2 * (num * fScale) ∨
    (magnitudeUnits p + magnitudeUnits (p + 1)) * den = 2 * (num * fScale) ∧ p % 2 = 1

/-- At the place q of its last significand bit a number has 53 significand bits at most, and all 53
unless q is 0. -/
theorem significand_bounds (v : Nat) :
    v / 2 ^ (v.log2 - 52) < 2 ^ 53 ∧ (v.log2 - 52 = 0 ∨ 2 ^ 52 ≤ v / 2 ^ (v.log2 - 52)) := by
  constructor
  · refine Nat.div_lt_of_lt_mul (lt_of_lt_of_le Nat.lt_log2_self ?_)
    rw [← Nat.pow_add]
    exact Nat.pow_le_pow_right (by decide) (by omega)
  · refine or_iff_not_imp_left.2 fun hq => ?_
    rw [Nat.le_div_iff_mul_le (Nat.two_pow_pos _), ← Nat.pow_add,
      show 52 + (v.log2 - 52) = v.log2 by omega]
    refine Nat.log2_self_le fun h0 => hq ?_
    rw [h0, Nat.log2_zero]

/-- RN chooses between the two neighbours of the exact value, and stops at the infinity. -/
theorem exists_neighbours (num : Nat) {den : Nat} (hd : 0 < den) :
    ∃ p, magnitudeUnits p * den ≤ num * fScale ∧ num * fScale < magnitudeUnits (p + 1) * den ∧
      (RoundsUp p num den → roundMag num den = min (p + 1) infPattern) ∧
      (¬ RoundsUp p num den → roundMag num den = min p infPattern) := by
  obtain ⟨hk, hq⟩ := significand_bounds (num * fScale / den)
  have hmag := roundMag.eq_1 num den
  simp only [RoundsUp]
  rw [Nat.div_div_eq_div_mul] at hk hq
  generalize num * fScale = v at *
  generalize (v / den).log2 - 52 = q at *
  have hdiv : den * 2 ^ q * (v / (den * 2 ^ q)) + v % (den * 2 ^ q) = v := Nat.div_add_mod _ _
  have hrem : v % (den * 2 ^ q) < den * 2 ^ q := Nat.mod_lt _ (Nat.mul_pos hd (Nat.two_pow_pos q))
  generalize v / (den * 2 ^ q) = k at *
  generalize v % (den * 2 ^ q) = r at *
  have hlow : magnitudeUnits (q * 2 ^ 52 + k) * den = den * 2 ^ q * k := by
    rw [magnitudeUnits_significand hk.le hq]
    ring
  have hhigh : magnitudeUnits (q * 2 ^ 52 + k + 1) * den = den * 2 ^ q * k + den * 2 ^ q := by
    rw [Nat.add_assoc, magnitudeUnits_significand (by omega) (by omega)]
    ring
  refine ⟨q * 2 ^ 52 + k, by omega, by omega, fun hup => ?_, fun hup => ?_⟩
  all_goals
    rw [Nat.add_mul, hlow, hhigh] at hup
    rw [hmag]
  · rw [if_pos, Nat.add_assoc]
    simp only [Bool.or_eq_true, Bool.and_eq_true, decide_eq_true_eq, beq_iff_eq]
    omega
  · rw [if_neg]
    simp only [Bool.or_eq_true, Bool.and_eq_true, decide_eq_true_eq, beq_iff_eq]
    omega

/-- RN passes a finite pattern exactly when the exact value is beyond the midpoint that follows it: all
of RN's properties follow from this one. -/
theorem lt_roundMag_iff {p num den : Nat} (hd : 0 < den) (hp : p < infPattern) :
    p < roundMag num den ↔ RoundsUp p num den := by
  obtain ⟨n, hlow, hhigh, hup, hdown⟩ := exists_neighbours num hd
  have hstep := magnitudeUnits_mul_lt_succ p hd
  have hround : min n infPattern ≤ roundMag num den ∧ roundMag num den ≤ n + 1 := by
    by_cases h : RoundsUp n num den
    · have := hup h
      omega
    · have := hdown h
      omega
  rcases Nat.lt_trichotomy p n with hlt | rfl | hgt
  · have hle := magnitudeUnits_mul_le (show p + 1 ≤ n from hlt) den
    simp only [RoundsUp, Nat.add_mul]
    omega
  · by_cases h : RoundsUp p num den
    · have := hup h
      simp only [h, iff_true]
      omega
    · have := hdown h
      simp only [h, iff_false]
      omega
  · have hle := magnitudeUnits_mul_le (show n + 1 ≤ p from hgt) den
    simp only [RoundsUp, Nat.add_mul]
    omega

theorem roundMag_le_infPattern (num den : Nat) : roundMag num den ≤ infPattern := Nat.min_le_right _ _

/-- A value not above a datum's does not round above the datum. -/
theorem roundMag_le_of_le {p num den : Nat} (hd : 0 < den) (hp : p < infPattern)
    (h : num * fScale ≤ magnitudeUnits p * den) : roundMag num den ≤ p := by
  have hstep := magnitudeUnits_mul_lt_succ p hd
  refine Nat.le_of_not_lt fun hlt => ?_
  have hup := (lt_roundMag_iff hd hp).1 hlt
  rw [RoundsUp, Nat.add_mul] at hup
  omega

/-- A value not below a datum's does not round below the datum. -/
theorem le_roundMag_of_le {p num den : Nat} (hd : 0 < den) (hp : p ≤ infPattern)
    (h : magnitudeUnits p * den ≤ num * fScale) : p ≤ roundMag num den := by
  cases p with
  | zero => exact Nat.zero_le _
  | succ p =>
    have hstep := magnitudeUnits_mul_lt_succ p hd
    refine (lt_roundMag_iff hd hp).2 (.inl ?_)
    rw [Nat.add_mul]
    omega

/-- The value of a finite datum rounds to the datum. -/
theorem roundMag_of_eq {p num den : Nat} (hd : 0 < den) (hp : p < infPattern)
    (h : num * fScale = magnitudeUnits p * den) : roundMag num den = p :=
  le_antisymm (roundMag_le_of_le hd hp h.le) (le_roundMag_of_le hd hp.le h.ge)

/-- RN of a value between the data of patterns p and p + 1. -/
theorem roundMag_of_neighbours {p num den : Nat} (hd : 0 < den) (hp : p + 1 < infPattern)
    (hlow : magnitudeUnits p * den ≤ num * fScale)
    (hhigh : num * fScale ≤ magnitudeUnits (p + 1) * den) :
    (RoundsUp p num den → roundMag num den = p + 1) ∧
      (¬ RoundsUp p num den → roundMag num den = p) := by
  have hle := roundMag_le_of_le hd hp hhigh
  have hge := le_roundMag_of_le hd (by omega) hlow
  rw [← lt_roundMag_iff hd (by omega)]
  omega

/-! ## Nearest, ties to even -/

theorem roundError_eq {p num den : Nat} (hp : p < infPattern) :
    roundError p num den = ((magnitudeUnits p * den : Nat) - (num * fScale : Nat) : Int).natAbs := by
  rw [roundError, patternUnits_eq hp]
  push_cast
  rfl

/-- The infinity is chosen from the midpoint of the last finite datum and 2^1024 on. -/
theorem roundMag_eq_infPattern_iff {num den : Nat} (hd : 0 < den) :
    roundMag num den = infPattern ↔ den * overflowBound ≤ num := by
  have hlast : infPattern - 1 < infPattern := by decide
  have hodd : (infPattern - 1) % 2 = 1 := by decide
  have hpow (k e f : Nat) : k * 2 ^ (e + f + 1) = 2 * (k * 2 ^ e * 2 ^ f) := by ring
  have hmid : magnitudeUnits (infPattern - 1) + magnitudeUnits (infPattern - 1 + 1) =
      2 * (overflowBound * fScale) := by
    rw [show infPattern - 1 = 2045 * 2 ^ 52 + (2 ^ 53 - 1) by decide, Nat.add_assoc,
      magnitudeUnits_significand (by decide) (by decide),
      magnitudeUnits_significand (by decide) (by decide), ← Nat.add_mul,
      show 2 ^ 53 - 1 + (2 ^ 53 - 1 + 1) = 2 ^ 54 - 1 from rfl,
      show 2045 = 970 + scaleBits + 1 from rfl, hpow, overflowBound, fScale]
  have hle : roundMag num den ≤ infPattern := roundMag_le_infPattern num den
  have hiff := lt_roundMag_iff (num := num) hd hlast
  rw [RoundsUp, hmid] at hiff
  have hscale : den * overflowBound ≤ num ↔ 2 * (overflowBound * fScale) * den ≤ 2 * (num * fScale) := by
    rw [show 2 * (overflowBound * fScale) * den = 2 * (den * overflowBound * fScale) by ring,
      Nat.mul_le_mul_left_iff (by decide), Nat.mul_le_mul_right_iff fScale_pos]
  rw [hscale]
  omega

/-- No finite datum is nearer than the one chosen: the exact value lies between the two midpoints next to
it, and on one of them only if the datum chosen is even. -/
theorem roundError_roundMag_le {num den q : Nat} (hd : 0 < den)
    (hfin : roundMag num den < infPattern) (hq : q < infPattern) :
    roundError (roundMag num den) num den ≤ roundError q num den ∧
      (roundError (roundMag num den) num den = roundError q num den → q ≠ roundMag num den →
        roundMag num den % 2 = 0) := by
  rw [roundError_eq hfin, roundError_eq hq]
  have habove := lt_roundMag_iff (num := num) hd hfin
  have hbelow (p : Nat) (hp : p < roundMag num den) :=
    (lt_roundMag_iff (num := num) hd (hp.trans hfin)).1 hp
  generalize roundMag num den = c at *
  simp only [RoundsUp, Nat.add_mul] at habove hbelow
  rcases Nat.lt_trichotomy q c with hlt | rfl | hgt
  · obtain ⟨p, rfl⟩ : ∃ p, c = p + 1 := ⟨c - 1, by omega⟩
    have hmid := hbelow p (by omega)
    have hle := magnitudeUnits_mul_le (show q ≤ p by omega) den
    have hlast := magnitudeUnits_mul_lt_succ p hd
    omega
  · exact ⟨le_rfl, fun _ h => absurd rfl h⟩
  · have hle := magnitudeUnits_mul_le (show c + 1 ≤ q from hgt) den
    have hfirst := magnitudeUnits_mul_lt_succ c hd
    omega

/-- Settles O47: the infinity from the last midpoint on, and otherwise the nearest datum. -/
theorem roundingIsToNearestEven : Obligations.RoundingIsToNearestEven := by
  intro num den hd
  exact ⟨roundMag_eq_infPattern_iff hd, fun hfin q hq => roundError_roundMag_le hd hfin hq⟩

end Sys2Proof.Machine

/-! SUPPORT. The operations of the MixingRound on data (R126 to R130, R133): results that are exact, results
bounded by a power of two, and the ranges of mixword's intermediates (R134). -/

namespace Sys2Proof.Machine

/-- A finite datum of magnitude at most 2^j. -/
structure AtMostTwoPow (j : Nat) (u : F64) : Prop where
  finite : fFinite u = true
  bounded : fUnits u ≤ 2 ^ j * fScale

theorem atMostTwoPow_zero_iff {u : F64} :
    AtMostTwoPow 0 u ↔ fFinite u = true ∧ fUnits u ≤ fScale := by
  have hone : 2 ^ 0 * fScale = fScale := by rw [Nat.pow_zero, Nat.one_mul]
  exact ⟨fun h => ⟨h.finite, h.bounded.trans hone.le⟩, fun ⟨hfin, hle⟩ => ⟨hfin, hle.trans hone.ge⟩⟩

/-! ## Sign and pattern -/

theorem fSign_eq (u : F64) : fSign u = decide (2 ^ 63 ≤ u.toNat) := by
  rw [fSign, BitVec.getLsbD, Nat.testBit_eq_decide_div_mod_eq, decide_eq_decide]
  omega

theorem toNat_withSign (neg : Bool) {p : Nat} (hp : p ≤ infPattern) :
    (withSign neg p).toNat = (if neg then 2 ^ 63 else 0) + p := by
  rw [infPattern] at hp
  rw [withSign, BitVec.toNat_ofNat]
  split <;> omega

theorem pattern_withSign (neg : Bool) {p : Nat} (hp : p ≤ infPattern) :
    (withSign neg p).toNat % 2 ^ 63 = p := by
  rw [toNat_withSign neg hp]
  rw [infPattern] at hp
  split <;> omega

theorem fSign_withSign (neg : Bool) {p : Nat} (hp : p ≤ infPattern) :
    fSign (withSign neg p) = neg := by
  rw [fSign_eq, toNat_withSign neg hp]
  rw [infPattern] at hp
  cases neg
  · exact decide_eq_false (by rw [if_neg nofun]; omega)
  · exact decide_eq_true (by rw [if_pos rfl]; omega)

theorem withSign_fSign {u : F64} (h : fFinite u = true) :
    withSign (fSign u) (u.toNat % 2 ^ 63) = u := by
  rw [fFinite_iff] at h
  refine BitVec.eq_of_toNat_eq ?_
  rw [toNat_withSign _ h.le, fSign_eq]
  by_cases hs : 2 ^ 63 ≤ u.toNat
  · simp only [hs, decide_true, if_true]
    omega
  · simp only [hs, decide_false, Bool.false_eq_true, if_false]
    omega

/-! ## Results of RN -/

@[simp] theorem fSign_roundNearest (neg : Bool) (num den : Nat) :
    fSign (roundNearest neg num den) = neg :=
  fSign_withSign neg (roundMag_le_infPattern num den)

@[simp] theorem fUnits_roundNearest (neg : Bool) (num den : Nat) :
    fUnits (roundNearest neg num den) = magnitudeUnits (roundMag num den) := by
  rw [fUnits_eq, roundNearest, pattern_withSign neg (roundMag_le_infPattern num den)]

theorem fFinite_roundNearest_iff {neg : Bool} {num den : Nat} :
    fFinite (roundNearest neg num den) = true ↔ roundMag num den < infPattern := by
  rw [fFinite_iff, roundNearest, pattern_withSign neg (roundMag_le_infPattern num den)]

theorem two_pow_pattern_lt {j : Nat} (hj : j ≤ 1023) : (1023 + j) * 2 ^ 52 < infPattern := by
  rw [infPattern]
  omega

/-- A value of at most 2^j stays there when it is rounded. -/
theorem roundNearest_atMost {j num den : Nat} (neg : Bool) (hj : j ≤ 1023) (hd : 0 < den)
    (h : num ≤ 2 ^ j * den) : AtMostTwoPow j (roundNearest neg num den) := by
  have hpattern := two_pow_pattern_lt hj
  have hle : roundMag num den ≤ (1023 + j) * 2 ^ 52 := by
    refine roundMag_le_of_le hd hpattern ?_
    rw [magnitudeUnits_two_pow, Nat.mul_right_comm]
    exact Nat.mul_le_mul_right _ h
  refine ⟨fFinite_roundNearest_iff.2 (hle.trans_lt hpattern), ?_⟩
  rw [fUnits_roundNearest, ← magnitudeUnits_two_pow]
  exact magnitudeUnits_strictMono.monotone hle

/-- A value with at most 53 significand bits, none below 2^-1074, is exact. -/
theorem fUnits_roundNearest_significand {j num den k q : Nat} (neg : Bool) (hj : j ≤ 1023)
    (hd : 0 < den) (hbound : num ≤ 2 ^ j * den) (hk : k ≤ 2 ^ 53)
    (h : num * fScale = k * 2 ^ q * den) : fUnits (roundNearest neg num den) = k * 2 ^ q := by
  obtain ⟨p, hp⟩ := exists_magnitudeUnits_eq hk q
  have hle : magnitudeUnits p ≤ magnitudeUnits ((1023 + j) * 2 ^ 52) := by
    refine Nat.le_of_mul_le_mul_right ?_ hd
    rw [hp, ← h, magnitudeUnits_two_pow, Nat.mul_right_comm]
    exact Nat.mul_le_mul_right _ hbound
  have hfin : p < infPattern :=
    (magnitudeUnits_strictMono.le_iff_le.1 hle).trans_lt (two_pow_pattern_lt hj)
  rw [fUnits_roundNearest, roundMag_of_eq hd hfin (by rw [h, hp]), hp]

theorem roundNearest_zero {den : Nat} (hd : 0 < den) : roundNearest false 0 den = 0 := by
  have hround : roundMag 0 den = 0 := roundMag_of_eq hd (by decide) (by simp [magnitudeUnits])
  rw [roundNearest, hround]
  rfl

/-! ## Products and quotients -/

theorem fmul_of_finite {u v : F64} (hu : fFinite u = true) (hv : fFinite v = true) :
    fmul u v = roundNearest (fSign u != fSign v) (fUnits u * fUnits v) (fScale * fScale) := by
  simp [fmul, fNaN_of_fFinite, hu, hv]

theorem fdiv_of_finite {u v : F64} (hu : fFinite u = true) (hv : fFinite v = true)
    (h0 : fUnits v ≠ 0) : fdiv u v = roundNearest (fSign u != fSign v) (fUnits u) (fUnits v) := by
  simp [fdiv, fNaN_of_fFinite, hu, hv, h0]

theorem fScale_mul_fScale_pos : 0 < fScale * fScale := Nat.mul_pos fScale_pos fScale_pos

theorem AtMostTwoPow.fmul {i j k : Nat} {u v : F64} (hu : AtMostTwoPow i u) (hv : AtMostTwoPow j v)
    (hsum : i + j = k) (hk : k ≤ 1023) : AtMostTwoPow k (fmul u v) := by
  rw [fmul_of_finite hu.finite hv.finite]
  refine roundNearest_atMost _ hk fScale_mul_fScale_pos ?_
  calc fUnits u * fUnits v ≤ 2 ^ i * fScale * (2 ^ j * fScale) :=
        Nat.mul_le_mul hu.bounded hv.bounded
    _ = 2 ^ k * (fScale * fScale) := by rw [← hsum, Nat.pow_add, Nat.mul_mul_mul_comm]

@[simp] theorem fUnits_zero : fUnits 0 = 0 := rfl

theorem zero_fmul {u : F64} (hu : fFinite u = true) (hs : fSign u = false) : fmul 0 u = 0 := by
  rw [fmul_of_finite rfl hu, hs, fUnits_zero, Nat.zero_mul]
  exact roundNearest_zero fScale_mul_fScale_pos

theorem fmul_zero {u : F64} (hu : fFinite u = true) (hs : fSign u = false) : fmul u 0 = 0 := by
  rw [fmul_of_finite hu rfl, hs, fUnits_zero, Nat.mul_zero]
  exact roundNearest_zero fScale_mul_fScale_pos

theorem fUnits_of_pattern {u : F64} {j : Nat} (h : u.toNat = (1023 + j) * 2 ^ 52) (hj : j ≤ 1023) :
    fUnits u = 2 ^ j * fScale := by
  rw [fUnits_eq, h, Nat.mod_eq_of_lt (by omega), magnitudeUnits_two_pow]

theorem fUnits_fM : fUnits fM = 2 ^ 64 * fScale := fUnits_of_pattern (by decide) (by decide)

theorem fM_value_pos : 0 < 2 ^ 64 * fScale := Nat.mul_pos (by decide) fScale_pos

theorem fdiv_fM {u : F64} (hu : fFinite u = true) :
    fdiv u fM = roundNearest (fSign u) (fUnits u) (2 ^ 64 * fScale) := by
  have hne : fUnits fM ≠ 0 := by
    rw [fUnits_fM]
    exact fM_value_pos.ne'
  rw [fdiv_of_finite hu (by decide) hne, fUnits_fM, show fSign fM = false by decide, Bool.bne_false]

theorem fUnits_fK : fUnits fK = 2 ^ 63 * fScale := fUnits_of_pattern (by decide) (by decide)

theorem fUnits_fOne : fUnits fOne = 2 ^ 0 * fScale := fUnits_of_pattern (by decide) (by decide)

theorem fmul_fOne {u : F64} (hu : fFinite u = true) : fmul u fOne = u := by
  have hround : roundMag (fUnits u * fUnits fOne) (fScale * fScale) = u.toNat % 2 ^ 63 := by
    refine roundMag_of_eq fScale_mul_fScale_pos ((fFinite_iff u).1 hu) ?_
    rw [fUnits_fOne, fUnits_eq, Nat.pow_zero, Nat.one_mul, Nat.mul_assoc]
  rw [fmul_of_finite hu (by decide), show fSign fOne = false by decide, Bool.bne_false,
    roundNearest, hround, withSign_fSign hu]

/-! ## Conversion from integers -/

theorem cvtU64F64_atMost {j : Nat} {n : Word} (hj : j ≤ 1023) (h : n.toNat ≤ 2 ^ j) :
    AtMostTwoPow j (cvtU64F64 n) :=
  roundNearest_atMost _ hj (by decide) (by rwa [Nat.mul_one])

@[simp] theorem fFinite_cvtU64F64 (n : Word) : fFinite (cvtU64F64 n) = true :=
  (cvtU64F64_atMost (j := 64) (by decide) n.isLt.le).finite

@[simp] theorem fSign_cvtU64F64 (n : Word) : fSign (cvtU64F64 n) = false :=
  fSign_roundNearest _ _ _

theorem cvtU64F64_zero : cvtU64F64 0 = 0 := roundNearest_zero (by decide)

/-- Up to 2^53 the conversion is exact. -/
theorem fUnits_cvtU64F64_of_small {n : Word} (h : n.toNat ≤ 2 ^ 53) :
    fUnits (cvtU64F64 n) = n.toNat * fScale := by
  have hbound : n.toNat ≤ 2 ^ 53 * 1 := by rwa [Nat.mul_one]
  exact fUnits_roundNearest_significand (q := scaleBits) false (by decide) Nat.one_pos hbound h
    (Nat.mul_one _).symm

/-- The place s of R126 and the significand rounded down. -/
theorem div_two_pow_bounds {n s : Nat} (hs : n.log2 - 52 = s) (hpos : 0 < s) :
    2 ^ 52 ≤ n / 2 ^ s ∧ n / 2 ^ s < 2 ^ 53 := by
  obtain ⟨hlt, hge⟩ := significand_bounds n
  rw [hs] at hlt hge
  exact ⟨hge.resolve_left (by omega), hlt⟩

theorem conversionSignificand_bounds {n s : Nat} (hs : n.log2 - 52 = s) (hpos : 0 < s) :
    2 ^ 52 ≤ conversionSignificand n s ∧ conversionSignificand n s ≤ 2 ^ 53 := by
  obtain ⟨hge, hlt⟩ := div_two_pow_bounds hs hpos
  simp only [conversionSignificand]
  split <;> omega

theorem magnitudeUnits_integer (s : Nat) {k : Nat} (hge : 2 ^ 52 ≤ k) (hle : k ≤ 2 ^ 53) :
    magnitudeUnits ((s + scaleBits) * 2 ^ 52 + k) = k * 2 ^ s * fScale := by
  rw [magnitudeUnits_significand hle (.inr hge), Nat.pow_add, Nat.mul_assoc, fScale]

/-- The midpoint between the two neighbours is half a unit of the significand's last place. -/
theorem roundsUp_integer_iff {n s : Nat} (hs : n.log2 - 52 = s) (hpos : 0 < s) :
    RoundsUp ((s + scaleBits) * 2 ^ 52 + n / 2 ^ s) n 1 ↔
      2 ^ (s - 1) < n % 2 ^ s ∨ (n % 2 ^ s = 2 ^ (s - 1) ∧ n / 2 ^ s % 2 = 1) := by
  obtain ⟨hge, hlt⟩ := div_two_pow_bounds hs hpos
  have hhalf : 2 ^ s = 2 * 2 ^ (s - 1) := by
    rw [← Nat.pow_succ', Nat.succ_eq_add_one, Nat.sub_add_cancel hpos]
  have hmid : n / 2 ^ s * 2 ^ s * fScale + (n / 2 ^ s + 1) * 2 ^ s * fScale =
      2 * ((2 ^ s * (n / 2 ^ s) + 2 ^ (s - 1)) * fScale) := by
    rw [← Nat.add_mul, ← Nat.mul_assoc, Nat.add_mul _ 1, Nat.one_mul, Nat.mul_comm (n / 2 ^ s)]
    congr 1
    omega
  have hsplit : 2 ^ s * (n / 2 ^ s) + n % 2 ^ s = n := Nat.div_add_mod _ _
  rw [RoundsUp, Nat.add_assoc, magnitudeUnits_integer s hge hlt.le,
    magnitudeUnits_integer s (by omega) (by omega), hmid, Nat.mul_one,
    Nat.mul_lt_mul_left (by decide), Nat.mul_right_inj (by decide), Nat.mul_lt_mul_right fScale_pos,
    Nat.mul_left_inj fScale_pos.ne']
  omega

/-- RN of an integer from 2^53 on is the algorithm of R126. -/
theorem roundMag_of_large {n s : Nat} (hs : n.log2 - 52 = s) (hpos : 0 < s) (hmax : s < 64) :
    roundMag n 1 = (s + scaleBits) * 2 ^ 52 + conversionSignificand n s := by
  obtain ⟨hge, hlt⟩ := div_two_pow_bounds hs hpos
  have hfin : (s + scaleBits) * 2 ^ 52 + n / 2 ^ s + 1 < infPattern := by
    rw [scaleBits, infPattern]
    omega
  have hlow : magnitudeUnits ((s + scaleBits) * 2 ^ 52 + n / 2 ^ s) * 1 ≤ n * fScale := by
    rw [magnitudeUnits_integer s hge hlt.le, Nat.mul_one]
    exact Nat.mul_le_mul_right _ (Nat.div_mul_le_self n _)
  have hhigh : n * fScale ≤ magnitudeUnits ((s + scaleBits) * 2 ^ 52 + n / 2 ^ s + 1) * 1 := by
    rw [Nat.add_assoc, magnitudeUnits_integer s (by omega) (by omega), Nat.mul_one]
    exact Nat.mul_le_mul_right _ (Nat.lt_mul_of_div_lt (Nat.lt_succ_self _) (Nat.two_pow_pos s)).le
  obtain ⟨hup, hdown⟩ := roundMag_of_neighbours (by decide) hfin hlow hhigh
  rw [roundsUp_integer_iff hs hpos] at hup hdown
  simp only [conversionSignificand]
  split
  · next h => rw [hup h, Nat.add_assoc]
  · next h => exact hdown h

theorem log2_word_lt (n : Word) : n.toNat.log2 < 64 := by
  rcases Nat.eq_zero_or_pos n.toNat with h | h
  · rw [h, Nat.log2_zero]
    decide
  · exact (Nat.log2_lt h.ne').2 n.isLt

theorem fUnits_cvtU64F64_of_large {n : Word} {s : Nat} (hs : n.toNat.log2 - 52 = s) (hpos : 0 < s) :
    fUnits (cvtU64F64 n) = conversionSignificand n.toNat s * 2 ^ s * fScale := by
  obtain ⟨hge, hle⟩ := conversionSignificand_bounds hs hpos
  have hlog := log2_word_lt n
  rw [cvtU64F64, fUnits_roundNearest, roundMag_of_large hs hpos (by omega),
    magnitudeUnits_integer s hge hle]

theorem toNat_le_of_log2_le {n : Word} (h : n.toNat.log2 ≤ 52) : n.toNat ≤ 2 ^ 53 :=
  Nat.lt_log2_self.le.trans (Nat.pow_le_pow_right (by decide) (by omega))

/-- What the conversion gives is an integer of at most 53 significand bits. -/
theorem exists_significand_cvtU64F64 (n : Word) :
    ∃ k q, k ≤ 2 ^ 53 ∧ fUnits (cvtU64F64 n) = k * 2 ^ q * fScale := by
  rcases Nat.eq_zero_or_pos (n.toNat.log2 - 52) with hs | hs
  · have hn := toNat_le_of_log2_le (n := n) (by omega)
    exact ⟨n.toNat, 0, hn, by rw [fUnits_cvtU64F64_of_small hn, Nat.pow_zero, Nat.mul_one]⟩
  · exact ⟨_, _, (conversionSignificand_bounds rfl hs).2, fUnits_cvtU64F64_of_large rfl hs⟩

/-- The last 1024 words are beyond the midpoint before 2^64, or on it with an odd datum below. -/
theorem cvtU64F64_of_last {n : Word} (h : 2 ^ 64 - 2 ^ 10 ≤ n.toNat) : cvtU64F64 n = fM := by
  have hlog : 63 ≤ n.toNat.log2 := (Nat.le_log2 (by omega)).2 (by omega)
  have hs : n.toNat.log2 - 52 = 11 := by
    have := log2_word_lt n
    omega
  have hcarry : conversionSignificand n.toNat 11 = 2 ^ 53 := by
    have := n.isLt
    simp only [conversionSignificand]
    split <;> omega
  rw [cvtU64F64, roundNearest, roundMag_of_large hs (by decide) (by decide), hcarry]
  rfl

/-- Settles O48: exact below 2^53, and the algorithm of R126 from there on; two of the last words show
that the conversion is not injective. -/
theorem conversionFollowsItsAlgorithm : Obligations.ConversionFollowsItsAlgorithm := by
  refine ⟨⟨0xFFFFFFFFFFFFFFFF, 0xFFFFFFFFFFFFFFFE, by decide, by decide, by decide, ?_⟩, fun n => ?_⟩
  · rw [cvtU64F64_of_last (by decide), cvtU64F64_of_last (by decide)]
  · refine ⟨fun h => by rw [cvtU64F64_of_last h, fUnits_fM], fun h => by rw [h, cvtU64F64_zero],
      fun h0 h => ?_, fun h => fUnits_cvtU64F64_of_large rfl (by omega),
      fFinite_cvtU64F64 n, fSign_cvtU64F64 n⟩
    exact fUnits_cvtU64F64_of_small (toNat_le_of_log2_le h)

/-- Settles O49: dividing by 2^64 takes 64 from the place of the significand, which stays above the lowest
place. -/
theorem normalisationIsExact : Obligations.NormalisationIsExact := by
  intro n
  obtain ⟨k, q, hk, hvalue⟩ := exists_significand_cvtU64F64 n
  have hbound : fUnits (cvtU64F64 n) ≤ 2 ^ 0 * (2 ^ 64 * fScale) := by
    rw [Nat.pow_zero, Nat.one_mul]
    exact (cvtU64F64_atMost (by decide) n.isLt.le).bounded
  have hsignificand : fUnits (cvtU64F64 n) * fScale = k * 2 ^ (q + 1010) * (2 ^ 64 * fScale) := by
    have hscale : fScale = 2 ^ 1010 * 2 ^ 64 := by rw [fScale, ← Nat.pow_add, scaleBits]
    calc fUnits (cvtU64F64 n) * fScale = k * 2 ^ q * (2 ^ 1010 * 2 ^ 64) * fScale := by
          rw [hvalue, ← hscale]
      _ = k * 2 ^ (q + 1010) * (2 ^ 64 * fScale) := by
          rw [Nat.pow_add 2 q 1010]
          simp only [Nat.mul_assoc]
  have hone := roundNearest_atMost false (by decide) fM_value_pos hbound
  have hunits := fUnits_roundNearest_significand false (by decide) fM_value_pos hbound hk hsignificand
  rw [fdiv_fM (fFinite_cvtU64F64 n), fSign_cvtU64F64]
  refine ⟨Nat.eq_of_mul_eq_mul_right fScale_pos ?_, hone.finite, fSign_roundNearest _ _ _,
    (atMostTwoPow_zero_iff.1 hone).2⟩
  rw [hunits, hsignificand, Nat.mul_assoc]

/-! ## Ceiling and conversion to integers -/

theorem toNat_fabs (u : F64) : (fabs u).toNat = u.toNat % 2 ^ 63 := by
  have hmask : (0x7FFFFFFFFFFFFFFF : BitVec 64).toNat = 2 ^ 63 - 1 := by decide
  rw [fabs, BitVec.toNat_and, hmask, Nat.and_two_pow_sub_one_eq_mod]

theorem fSign_fabs (u : F64) : fSign (fabs u) = false := by
  rw [fSign_eq, toNat_fabs]
  exact decide_eq_false (by omega)

theorem fUnits_fabs (u : F64) : fUnits (fabs u) = fUnits u := by
  rw [fUnits_eq, fUnits_eq, toNat_fabs, Nat.mod_mod]

theorem fFinite_fabs {u : F64} (h : fFinite u = true) : fFinite (fabs u) = true := by
  rw [fFinite_iff] at h ⊢
  rwa [toNat_fabs, Nat.mod_mod]

/-- The least integer not below |u|. -/
def ceilMagnitude (u : F64) : Nat := (fUnits u + (fScale - 1)) / fScale

theorem ceilMagnitude_of_integer {u : F64} {n : Nat} (h : fUnits u = n * fScale) :
    ceilMagnitude u = n := by
  have hpos := fScale_pos
  rw [ceilMagnitude, h, Nat.mul_comm, Nat.mul_add_div hpos, Nat.div_eq_of_lt (by omega), Nat.add_zero]

theorem ceilMagnitude_le {u : F64} {n : Nat} (h : fUnits u ≤ n * fScale) : ceilMagnitude u ≤ n := by
  have hpos := fScale_pos
  refine Nat.le_of_lt_succ (Nat.div_lt_of_lt_mul ?_)
  rw [Nat.mul_succ, Nat.mul_comm]
  omega

/-- The ceiling is a datum: from 2^52 on every datum is an integer (R129), and below it the ceiling has at
most 53 bits. -/
theorem ceilMagnitude_significand (u : F64) :
    ∃ k q, k ≤ 2 ^ 53 ∧ ceilMagnitude u * fScale = k * 2 ^ q := by
  obtain ⟨q, k, hp, hk, hq⟩ := exists_significand (u.toNat % 2 ^ 63)
  have hunits : fUnits u = k * 2 ^ q := by
    rw [fUnits_eq, hp, magnitudeUnits_significand hk.le hq]
  rcases Nat.lt_or_ge q scaleBits with hfraction | hinteger
  · refine ⟨_, scaleBits, ?_, rfl⟩
    refine ceilMagnitude_le ?_
    rw [hunits]
    exact Nat.mul_le_mul hk.le (Nat.pow_le_pow_right (by decide) hfraction.le)
  · obtain ⟨e, rfl⟩ := Nat.exists_eq_add_of_le' hinteger
    rw [Nat.pow_add, ← Nat.mul_assoc] at hunits
    refine ⟨k, e + scaleBits, hk.le, ?_⟩
    rw [ceilMagnitude_of_integer hunits, Nat.pow_add, Nat.mul_assoc, fScale]

theorem fceil_fabs {u : F64} (h : fFinite u = true) :
    fceil (fabs u) = roundNearest false (ceilMagnitude u) 1 := by
  simp [fceil, fFinite_fabs h, fSign_fabs, fUnits_fabs, ceilMagnitude]

/-- R130 on an integer-valued datum in range. -/
theorem cvtF64U64_of_integer {u : F64} {n : Nat} (hfin : fFinite u = true) (hs : fSign u = false)
    (hu : fUnits u = n * fScale) (hn : n < 2 ^ 64) : (cvtF64U64 u).toNat = n := by
  rw [cvtF64U64, fNaN_of_fFinite hfin, hs, hfin, hu, Nat.mul_mod_left, Nat.mul_div_cancel _ fScale_pos,
    if_neg nofun, if_pos rfl, if_pos rfl, BitVec.toNat_ofNat]
  omega

/-- Step 4 of R133 is exact (R137). -/
theorem toNat_mixInt {u : F64} (h : fFinite u = true) (hu : fUnits u ≤ 2 ^ 63 * fScale) :
    (mixInt u).toNat = ceilMagnitude u := by
  obtain ⟨k, q, hk, hceil⟩ := ceilMagnitude_significand u
  have hle : ceilMagnitude u ≤ 2 ^ 63 := ceilMagnitude_le hu
  have hbound : ceilMagnitude u ≤ 2 ^ 63 * 1 := by rwa [Nat.mul_one]
  have hfin := (roundNearest_atMost false (by decide) Nat.one_pos hbound).finite
  have hunits := fUnits_roundNearest_significand false (by decide) Nat.one_pos hbound hk
    (hceil.trans (Nat.mul_one _).symm)
  rw [mixInt, fround, fceil_fabs h]
  exact cvtF64U64_of_integer hfin (fSign_roundNearest _ _ _) (hunits.trans hceil.symm) (by omega)

/-- Settles O50. -/
theorem integerIsTheCeilingOfTheMagnitude : Obligations.IntegerIsTheCeilingOfTheMagnitude :=
  fun _ hfin hle => toNat_mixInt hfin hle

/-! ## mixword -/

theorem atMostTwoPow_of_fAtMostOne {u : F64} (h : fAtMostOne u) : AtMostTwoPow 0 u := by
  have hone : fOne.toNat = (1023 + 0) * 2 ^ 52 := by decide
  rw [fAtMostOne, toNat_fabs, hone] at h
  refine ⟨(fFinite_iff u).2 (h.trans_lt (by decide)), ?_⟩
  rw [fUnits_eq, ← magnitudeUnits_two_pow]
  exact magnitudeUnits_strictMono.monotone h

theorem atMostTwoPow_fK : AtMostTwoPow 63 fK := ⟨by decide, fUnits_fK.le⟩

theorem atMostTwoPow_fPi : AtMostTwoPow 2 fPi := by
  refine ⟨by decide, ?_⟩
  rw [fUnits_eq, ← magnitudeUnits_two_pow]
  exact magnitudeUnits_strictMono.monotone (by decide)

theorem atMostTwoPow_cvt_round (h : BitVec 7) : AtMostTwoPow 7 (cvtU64F64 (h.setWidth 64)) := by
  refine cvtU64F64_atMost (by decide) ?_
  rw [BitVec.toNat_setWidth]
  omega

/-- f of R133 (R134). -/
theorem atMostTwoPow_normalised (w : Word) : AtMostTwoPow 0 (fdiv (cvtU64F64 w) fM) := by
  obtain ⟨-, hfin, -, hle⟩ := normalisationIsExact w
  exact atMostTwoPow_zero_iff.2 ⟨hfin, hle⟩

theorem atMostTwoPow_mixB (w : Word) (h : BitVec 7) : AtMostTwoPow 9 (mixB w h) :=
  ((atMostTwoPow_normalised w).fmul (atMostTwoPow_cvt_round h) rfl (by decide)).fmul
    atMostTwoPow_fPi rfl (by decide)

theorem atMostTwoPow_mixG (w : Word) (h : BitVec 7) : AtMostTwoPow 16 (mixG w h) :=
  (atMostTwoPow_cvt_round h).fmul (atMostTwoPow_mixB w h) rfl (by decide)

/-- Settles O51: every intermediate is within a power of two, the angles by their factors and the rest by
P2. -/
theorem mixwordStaysInRange : Obligations.MixwordStaysInRange := by
  intro num hP2 w h _
  have hb := atMostTwoPow_mixB w h
  have hg := atMostTwoPow_mixG w h
  obtain ⟨hcb, hsb⟩ := hP2 _ hb.finite
  obtain ⟨hc, -⟩ := hP2 _ hg.finite
  have hkc : AtMostTwoPow 63 (mixKc num w h) :=
    atMostTwoPow_fK.fmul (atMostTwoPow_of_fAtMostOne hc) rfl (by decide)
  have hx : AtMostTwoPow 63 (mixX0 num w h) :=
    hkc.fmul (atMostTwoPow_of_fAtMostOne hcb) rfl (by decide)
  have hy : AtMostTwoPow 63 (mixY0 num w h) :=
    hkc.fmul (atMostTwoPow_of_fAtMostOne hsb) rfl (by decide)
  have hint {u : F64} (hu : AtMostTwoPow 63 u) : (mixInt u).toNat ≤ 2 ^ 63 := by
    rw [toNat_mixInt hu.finite hu.bounded]
    exact ceilMagnitude_le hu.bounded
  exact ⟨hb.finite, hg.finite, hkc.finite, hx.finite, hy.finite, hint hx, hint hy⟩

theorem mixB_zero (h : BitVec 7) : mixB 0 h = 0 := by
  have hdiv : fdiv 0 fM = 0 := by
    rw [fdiv_fM rfl, fUnits_zero]
    exact roundNearest_zero fM_value_pos
  rw [mixB, cvtU64F64_zero, hdiv, zero_fmul (fFinite_cvtU64F64 _) (fSign_cvtU64F64 _),
    zero_fmul (by decide) (by decide)]

theorem mixG_zero (h : BitVec 7) : mixG 0 h = 0 := by
  rw [mixG, mixB_zero, fmul_zero (fFinite_cvtU64F64 _) (fSign_cvtU64F64 _)]

/-- Settles O52: the angles are +0, so by P1 x0 is K and y0 is +0. -/
theorem mixwordOfZero : Obligations.MixwordOfZero := by
  intro num ⟨hcos, hsin⟩ h
  have hK : fFinite fK = true := by decide
  have hkc : mixKc num 0 h = fK := by rw [mixKc, mixG_zero, hcos, fmul_fOne hK]
  have hx : mixX0 num 0 h = fK := by rw [mixX0, hkc, mixB_zero, hcos, fmul_fOne hK]
  have hy : mixY0 num 0 h = 0 := by rw [mixY0, hkc, mixB_zero, hsin, fmul_zero hK (by decide)]
  have hintK : mixInt fK = 0x8000000000000000 := by
    refine BitVec.eq_of_toNat_eq ?_
    rw [toNat_mixInt hK fUnits_fK.le, ceilMagnitude_of_integer fUnits_fK]
    rfl
  have hint0 : mixInt 0 = 0 := by
    refine BitVec.eq_of_toNat_eq ?_
    rw [toNat_mixInt rfl (Nat.zero_le _),
      ceilMagnitude_of_integer (fUnits_zero.trans (Nat.zero_mul fScale).symm)]
    rfl
  rw [mixword, hx, hy, hintK, hint0]
  rfl

end Sys2Proof.Machine

/-! SUPPORT. MIX and DIFFUSE: what they leave in a, p and H, lane by lane and byte by byte (R121, R140, R141). -/

namespace Sys2Proof.Machine

/-- Settles O22: a and p receive the same words, each from the word of a in its place. -/
theorem mixTransformsEveryLane : Obligations.MixTransformsEveryLane := by
  intro s _ hn
  refine ⟨_, execMix_next_iff.2 ⟨Nat.div_le_div_right hn, rfl⟩, fun k hk => ?_, fun k hk => ?_, rfl⟩
  · exact ⟨read_mix _ _ hk, read_mix _ _ hk⟩
  · exact ⟨Cells.read_putAll_outside _ _ _ _ (.inr (by simpa using hk)),
      Cells.read_putAll_outside _ _ _ _ (.inr (by simpa using hk))⟩

/-- Settles O23: the cells of a are the words added, and every byte of H holds a value to add them to. -/
theorem diffuseUpdatesEveryByte : Obligations.DiffuseUpdatesEveryByte := by
  intro s ha hh hn
  obtain ⟨words, hwords⟩ := readCells_of_filled (c := s.a) (lo := 0) (n := wordCount s)
    fun k hk => by simpa using Cells.filled_iff.1 ha k hk
  obtain ⟨hlen, hread⟩ := readCells_eq_map_some_iff.1 hwords
  refine ⟨_, words, hlen, fun k hk => by simpa using hread k hk,
    execDiffuse_next_iff.2 ⟨hn, rfl⟩, fun i hi => ?_, fun i hi => ?_, rfl⟩
  · obtain ⟨x, hx⟩ := Option.isSome_iff_exists.1 (Cells.filled_iff.1 hh i hi)
    rw [read_diffuse hi, State.readA, hwords, hx, diffuseCell_map_some]
    rfl
  · exact Cells.read_putAll_outside _ _ _ _ (.inr (by simpa using hi))

/-- Exclusive-or is commutative, so the order of the words is immaterial (R141). -/
theorem diffusionByte_perm {words words' : List Word} (h : words.Perm words') :
    diffusionByte words = diffusionByte words' := by
  refine h.foldl_eq' (fun w _ w' _ d => ?_) 0
  rw [BitVec.xor_assoc, BitVec.xor_assoc, BitVec.xor_comm (lowByte w)]

/-- Settles O26: DIFFUSE is D on every byte, and D does not depend on the order of the words. -/
theorem diffusionIsOneByte : Obligations.DiffusionIsOneByte := by
  refine ⟨fun w _ hk => lowByte_shiftLeft w hk, diffuse_eq, fun words words' x h => ?_⟩
  rw [diffuse_eq, diffuse_eq, diffusionByte_perm h]

end Sys2Proof.Machine

/-! SUPPORT. The StateFolder (R160 to R163): R as a list of bytes, packing as the inverse of serialising, the
two folds on values, and what FOLD leaves in H byte by byte. -/

namespace Sys2Proof.Machine

variable {s : State}

/-! ## Serialising -/

/-- Byte i of R (R160); 0 past its end. -/
def outputByte (words : List Word) (i : Nat) : Byte :=
  lowByte (words.getD (i / 8) 0 >>> (8 * (i % 8)))

theorem serialise_getElem? (words : List Word) (i : Nat) :
    (serialise words)[i]? = words[i / 8]?.map fun (x : Word) => lowByte (x >>> (8 * (i % 8))) := by
  have hcell := serialiseCells_getElem? (words.map some) i
  rw [serialiseCells_map_some, List.getElem?_map, List.getElem?_map, Option.map_map] at hcell
  refine Option.map_injective (Option.some_injective _) (hcell.trans ?_)
  rw [Option.map_map]
  rfl

theorem serialise_eq_map_range (words : List Word) :
    serialise words = (List.range (8 * words.length)).map (outputByte words) := by
  refine List.ext_getElem? fun i => ?_
  rw [serialise_getElem?, List.getElem?_map]
  by_cases hi : i < 8 * words.length
  · have hk : i / 8 < words.length := by omega
    simp [outputByte, List.getElem?_range hi, hk]
  · have hk : words.length ≤ i / 8 := by omega
    simp [hk, hi]

theorem lowByte_shiftRight_toNat (w : Word) (j : Nat) :
    (lowByte (w >>> j)).toNat = w.toNat / 2 ^ j % 256 := by
  rw [lowByte, BitVec.toNat_setWidth, BitVec.toNat_ushiftRight, Nat.shiftRight_eq_div_pow]

theorem serialiseWord_getElem? (w : Word) {m : Nat} (hm : m < 8) :
    (serialiseWord w)[m]? = some (w.extractLsb' (8 * m) 8) := by
  rw [serialiseWord, List.getElem?_map, List.getElem?_range hm]
  rfl

/-- A word is determined by its eight bytes. -/
theorem word_eq_of_bytes {v w : Word}
    (h : ∀ m, m < 8 → v.extractLsb' (8 * m) 8 = w.extractLsb' (8 * m) 8) : v = w := by
  refine BitVec.eq_of_getLsbD_eq fun i hi => ?_
  have hbit := congrArg (·.getLsbD (i % 8)) (h (i / 8) (by omega))
  simpa [Nat.mod_lt, Nat.div_add_mod] using hbit

/-- The sum of R103 of a word's own bytes is the word. -/
theorem packGroup_serialiseWord (w : Word) : packGroup (serialiseWord w) = w := by
  have hlen : (serialiseWord w).length = 8 := by simp [serialiseWord]
  refine word_eq_of_bytes fun m hm => ?_
  have hbyte := getElem?_of_packGroup (xs := serialiseWord w) hlen.le (hm.trans_eq hlen.symm)
  rw [serialiseWord_getElem? w hm] at hbyte
  exact (Option.some.inj hbyte).symm

theorem packWords_serialise (words : List Word) :
    packWords words.length (serialise words) = words := by
  induction words with
  | nil => rfl
  | cons w words ih =>
    have hlen : (serialiseWord w).length = 8 := by simp [serialiseWord]
    rw [serialise, List.flatMap_cons, ← serialise, List.length_cons, packWords,
      List.take_left' hlen, List.drop_left' hlen, packGroup_serialiseWord, ih]

/-- Settles O29: R is the words' bytes in order, and each group of eight packs into its word again. -/
theorem packingInvertsSerialising : Obligations.PackingInvertsSerialising := by
  intro words
  refine ⟨fun k m hm => ?_, serialise_length words, packWords_serialise words⟩
  have hdiv : (8 * k + m) / 8 = k := by omega
  have hmod : (8 * k + m) % 8 = m := by omega
  rw [serialise_getElem?, hdiv, hmod, Option.map_map]
  exact Option.map_congr fun w _ => lowByte_shiftRight_toNat w _

/-! ## The folds on values -/

/-- Settles O27: the byte of index i is added once with all the others and once more by itself. -/
theorem crossFoldAddsTotalAndOwnByte : Obligations.CrossFoldAddsTotalAndOwnByte := by
  intro h r i x y hlen hx hy
  rw [foldCross_eq_zipWith hlen, List.getElem?_zipWith, hx, hy]

theorem foldCross_eq_map_foldElementwise {h r : List Byte} (hlen : h.length = r.length) :
    foldCross h r = (foldElementwise h r).map fun x => x ^^^ totalByte r := by
  rw [foldCross_eq_zipWith hlen, foldElementwise, List.map_zipWith]
  congr 1
  funext x y
  ac_rfl

/-- Settles O28: T added to every byte changes none of them exactly when T is 0; where there is no byte, R
is empty and T is 0. -/
theorem foldModesAgreeExactlyWhenTotalIsZero : Obligations.FoldModesAgreeExactlyWhenTotalIsZero := by
  intro h r hlen
  have hmap := foldCross_eq_map_foldElementwise hlen
  refine ⟨hmap, ?_⟩
  rw [hmap]
  constructor
  · intro heq
    cases r with
    | nil => rfl
    | cons y r =>
      obtain ⟨x, h, rfl⟩ := List.exists_cons_of_length_eq_add_one hlen
      have hhead : x ^^^ y ^^^ totalByte (y :: r) = x ^^^ y := (List.cons.inj heq).1
      exact (BitVec.xor_right_inj _).1 (hhead.trans BitVec.xor_zero.symm)
  · intro hzero
    simp [hzero]

/-! ## FOLD -/

theorem roundOutput_getElem? {i : Nat} (hi : i / 8 < wordCount s) :
    s.roundOutput[i]? =
      some ((s.p.read (i / 8)).map fun (w : Word) => lowByte (w >>> (8 * (i % 8)))) := by
  rw [State.roundOutput, serialiseCells_getElem?, State.readP, readCells_getElem?_zero _ hi,
    Option.map_some]

theorem read_foldE_byte (h8 : s.n.toNat % 8 = 0) {i : Nat} (hi : i < s.n.toNat) :
    (s.h.putAll 0 (foldElementwiseCells (s.readH 0 s.n.toNat) s.roundOutput)).read i =
      (s.h.read i).bind fun x =>
        (s.p.read (i / 8)).map fun (w : Word) => x ^^^ lowByte (w >>> (8 * (i % 8))) := by
  have hw : 8 * wordCount s = s.n.toNat := by rw [wordCount]; omega
  rw [Cells.read_putAll_zero _ (by simpa [hw] using hi), foldElementwiseCells,
    List.getElem?_zipWith, State.readH, readCells_getElem?_zero _ hi,
    roundOutput_getElem? (by omega)]
  cases s.h.read i <;> cases s.p.read (i / 8) <;> rfl

/-- Settles O24: each byte of H receives the byte of its own index, and the operation ends the ABSORB. -/
theorem foldElementwiseAddsSerialisedWords : Obligations.FoldElementwiseAddsSerialisedWords := by
  intro s _ _ h8 hn
  obtain ⟨t, hexec, -, hout, ht⟩ := exec_foldE_without_value hn h8
  refine ⟨t, hexec, fun i hi => ?_, hout, ht⟩
  obtain ⟨-, rfl⟩ := execFoldE_next_iff.1 hexec
  exact read_foldE_byte h8 hi

/-- The bytes the cross fold adds, one after the other in the order of their indices (R162). -/
theorem crossFrom_map_range' {α : Type} (add : α → α → α) (f : Nat → α) (i j len : Nat) (x : α) :
    crossFrom add i j ((List.range' j len).map f) x =
      (List.range' j len).foldl (fun x k => if k = i then x else add x (f k)) x := by
  induction len generalizing j x with
  | zero => rfl
  | succ len ih => rw [List.range'_succ, List.map_cons, crossFrom, ih, List.foldl_cons]

theorem read_foldX_value {words : List Word} (hp : s.readP 0 (wordCount s) = words.map some)
    {i : Nat} (hi : i < s.n.toNat) :
    (s.h.putAll 0 (foldCrossCells (s.readH 0 s.n.toNat) s.roundOutput)).read i =
      (s.h.read i).map (crossFrom (fun x y => x ^^^ y) i 0 (serialise words)) := by
  rw [read_foldX hi, State.roundOutput, hp, serialiseCells_map_some]
  cases s.h.read i with
  | none => exact crossFrom_eq_none_iff.2 (.inl rfl)
  | some x => exact crossFrom_map_some _ _ _ _ _

/-- Settles O25: the bytes of R are added in the order of their indices, all but the one of index i, which
is T and the byte of index i once more. -/
theorem foldCrossAddsEveryOtherByte : Obligations.FoldCrossAddsEveryOtherByte := by
  intro s hp _ h8 hn
  obtain ⟨words, hlen, hwords⟩ := readCells_zero_of_filled hp
  obtain ⟨-, hread⟩ := readCells_eq_map_some_iff.1 hwords
  have hw : 8 * words.length = s.n.toNat := by rw [hlen, wordCount]; omega
  have hR := serialise_eq_map_range words
  rw [hw] at hR
  obtain ⟨t, hexec, -, hout, ht⟩ := exec_foldX_without_value hn h8
  have hbyte : ∀ i, i < s.n.toNat → t.h.read i =
      (s.h.read i).map (crossFrom (fun x y => x ^^^ y) i 0 (serialise words)) := by
    obtain ⟨-, rfl⟩ := execFoldX_next_iff.1 hexec
    exact fun i hi => read_foldX_value hwords hi
  refine ⟨t, words, hlen, fun k hk => by simpa using hread k hk, hexec, fun i hi => ?_, hout,
    fun i hi => ?_, ht⟩
  · rw [hbyte i hi, hR, List.range_eq_range']
    exact Option.map_congr fun x _ => crossFrom_map_range' _ _ _ _ _ _
  · have hown : (serialise words)[i]? = some (outputByte words i) := by
      rw [hR, List.getElem?_map, List.getElem?_range hi, Option.map_some]
    rw [hbyte i hi]
    refine Option.map_congr fun x _ => ?_
    have hsum := crossFrom_own hown 0 x
    rw [Nat.zero_add] at hsum
    rw [hsum, hR, totalByte, List.foldl_map]
    rfl

end Sys2Proof.Machine

/-! SUPPORT. ABSORB as a function of H (R165, R176): blocks commute, a block absorbed twice cancels, and the
machine's ABSORB is that function. -/

namespace Sys2Proof.Machine

variable {s t : State}

/-! ## The function -/

theorem zipWith_right_comm {α β γ : Type} {f : α → β → α} {g : α → γ → α}
    (h : ∀ x y z, g (f x y) z = f (g x z) y) (xs : List α) (ys : List β) (zs : List γ) :
    List.zipWith g (List.zipWith f xs ys) zs = List.zipWith f (List.zipWith g xs zs) ys := by
  induction xs generalizing ys zs with
  | nil => simp
  | cons x xs ih =>
    cases ys with
    | nil => simp
    | cons y ys =>
      cases zs with
      | nil => simp
      | cons z zs => simp only [List.zipWith_cons_cons, h, ih]

theorem zipWith_zipWith_cancel {α β : Type} {f : α → β → α} (h : ∀ x y, f (f x y) y = x)
    {xs : List α} {ys : List β} (hlen : xs.length = ys.length) :
    List.zipWith f (List.zipWith f xs ys) ys = xs :=
  List.ext_getElem (by simp [hlen]) fun i _ _ => by simp [h]

theorem xor_twice_cancel (x b y : Byte) : x ^^^ b ^^^ y ^^^ b ^^^ y = x :=
  calc x ^^^ b ^^^ y ^^^ b ^^^ y
    _ = x ^^^ (b ^^^ b) ^^^ (y ^^^ y) := by ac_rfl
    _ = x := by simp

/-- Settles O44: each block adds to each byte of H a byte that does not depend on H. -/
theorem blocksCommute : Obligations.BlocksCommute := by
  intro inst n mode h d e
  refine zipWith_right_comm (fun x y z => ?_) _ _ _
  ac_rfl

/-- Settles O45: the byte added to each byte of H is the same both times, and H and R have N bytes each. -/
theorem blockAbsorbedTwiceCancels : Obligations.BlockAbsorbedTwiceCancels := by
  intro inst n mode h d hlen h8
  exact zipWith_zipWith_cancel (fun x y => xor_twice_cancel x _ y)
    (hlen.trans (length_serialise_blockRounds h8 d).symm)

/-! ## The machine -/

/-- A script that has nothing to issue leaves the machine to itself. -/
theorem run_of_runScript_nil {k : Nat} (h : runScript k [] s = .next ([], t)) :
    Host.Core.run core k s = .next t := by
  induction k generalizing s with
  | zero =>
    cases h
    rfl
  | succ k ih =>
    simp only [runScript, issueNext_nil] at h
    split at h
    · rename_i hstep
      exact (run_succ_of_step (M := core) hstep).trans (ih h)
    · cases h
    · cases h

theorem RunsAlone.run {k : Nat} (h : RunsAlone k s t) : Host.Core.run core k s = .next t :=
  run_of_runScript_nil (h [])

theorem inv_b_filled_wptr (h : s.Inv) : s.b.filled s.wptr.toNat = true := by
  obtain ⟨-, -, -, -, ⟨-, -, hb⟩, -⟩ := h
  exact hb

/-- Settles O34: H[0, N) and the bytes pushed hold values, and from them the accepting step, PAD, PACK, five
rounds and FOLD reach the state of the block function with no move of the host in between. -/
theorem absorbComputesTheBlockFunction : Obligations.AbsorbComputesTheBlockFunction := by
  intro s w rest h hopen hw hr hp hi
  obtain ⟨bytes, -, hbytes⟩ := readCells_zero_of_filled (inv_h_filled h)
  obtain ⟨block, -, hblock⟩ := readCells_zero_of_filled (inv_b_filled_wptr h)
  have hd : s.digest = some bytes := digest_eq_some_iff.2 hbytes
  have hb : s.block = some block := block_eq_some_iff.2 hblock
  obtain ⟨h', b, a, p, hread, hrun⟩ := runsAlone_absorb h hopen hw hr hp hi hd hb
  exact ⟨_, bytes, block, hd, hb, hrun.run, digest_eq_some_iff.2 hread, rfl⟩

end Sys2Proof.Machine

/-! SUPPORT. The session: CREATE, PUSH, ABSORB and RDH case by case, and everything an operation can do to
STATUS and ERRINFO. -/

namespace Sys2Proof.Machine

variable {s t : State} {i : Instr}

/-! ## CREATE and ABSORB -/

theorem legalSize_eq_false_iff {inst : Config.Instance} {n : BitVec 16} :
    legalSize inst n = false ↔ n.toNat < 8 ∨ n.toNat % 8 ≠ 0 ∨ inst.nmax.toNat < n.toNat := by
  rw [← Bool.not_eq_true, legalSize_iff]
  omega

theorem execAbsorb_noSession (hv : s.valid = false) :
    execAbsorb s = .next (s.raise .noSession absorbWord) := if_pos hv

theorem execAbsorb_noBytes (hv : s.valid = true) (hw : s.wptr = 0) :
    execAbsorb s = .next (s.respond .ok) := by
  rw [execAbsorb, if_neg (by simp [hv]), if_pos hw]

/-- What a CREATE that completes leaves: a session of N with no error, no byte pushed and the digest
P[0, N) (R171). -/
theorem session_of_execCreate {n : BitVec 16} {mode : FoldMode} (hl : legalSize s.inst n = true)
    (h : execCreate n mode s = .next t) :
    t.valid = true ∧ t.err = .noError ∧ t.n = n ∧ t.wptr = 0 ∧
      t.digest = some (s.inst.p.take n.toNat) := by
  obtain ⟨hlp, -, rfl⟩ := (execCreate_legal_next_iff hl).1 h
  have hlen : (s.inst.p.take n.toNat).length = n.toNat := List.length_take_of_le hlp
  exact ⟨rfl, rfl, rfl, rfl, digest_eq_some_iff.2 (readCells_putAll_zero s.h hlen)⟩

/-- Settles O12: a legal size opens the session, and the sizes listed are those that are not legal. -/
theorem createOpensASessionOrRaises : Obligations.CreateOpensASessionOrRaises := by
  intro s n mode
  exact ⟨execCreate_opens mode, fun hn => execCreate_illegal (legalSize_eq_false_iff.2 hn)⟩

/-- Settles O13: the three cases of ABSORB (R174, R175). -/
theorem absorbStartsOrIsNoOpOrRaises : Obligations.AbsorbStartsOrIsNoOpOrRaises :=
  fun _ => ⟨execAbsorb_noSession, execAbsorb_noBytes, execAbsorb_accepted⟩

/-- Settles O14: ABSORB with no bytes is answered and nothing else happens. -/
theorem absorbOfNothingChangesNoRegister : Obligations.AbsorbOfNothingChangesNoRegister :=
  fun _ hv hw => ⟨_, execAbsorb_noBytes hv hw, rfl⟩

/-- Settles O16: CREATE leaves WPTR = 0, so the ABSORB that follows is answered and nothing else. -/
theorem emptyInputDigestIsThePrefixOfP : Obligations.EmptyInputDigestIsThePrefixOfP := by
  intro s t n mode hl h
  obtain ⟨hvalid, herr, hn, hw, hdigest⟩ := session_of_execCreate hl h
  exact ⟨hvalid, herr, hn, hdigest, t.respond .ok, execAbsorb_noBytes hvalid hw, hvalid, herr, hn,
    hdigest⟩

/-! ## PUSH and RDH -/

theorem execPush_noSession {b : Byte} (hv : s.valid = false) :
    execPush b s = .next (s.raise .noSession (b.setWidth 32)) := if_pos hv

theorem execPush_overflow {b : Byte} (hv : s.valid = true) (hn : s.wptr = s.n) :
    execPush b s = .next (s.raise .overflow (b.setWidth 32)) := by
  rw [execPush, if_neg (by simp [hv]), if_pos hn]

/-- Whatever RDH answers, it writes nothing (R178). -/
theorem respond_of_execRdh {k : BitVec 12} (h : execRdh k s = .next t) : ∃ r, t = s.respond r := by
  unfold execRdh at h
  split_ifs at h
  · cases h
    exact ⟨_, rfl⟩
  · split at h <;> cases h <;> exact ⟨_, rfl⟩

/-- Settles O17: the store of an accepted PUSH is one write of one byte at WPTR. -/
theorem pushStoresTheByteOrRaises : Obligations.PushStoresTheByteOrRaises := by
  intro s b
  refine ⟨execPush_noSession, execPush_overflow, fun hv hn hcap => ?_⟩
  refine ⟨_, (execPush_accepted_next_iff hv hn).2 ⟨hcap, rfl⟩, ?_, fun i hi => ?_, rfl⟩
  · exact Cells.read_putAll_some s.b s.wptr.toNat [b] 0 Nat.one_pos
  · refine Cells.read_putAll_outside _ _ _ _ ?_
    rw [List.length_singleton]
    omega

/-- Settles O18: RDH refused, and RDH of a byte inside the window. -/
theorem rdhReturnsTheByteOrBusError : Obligations.RdhReturnsTheByteOrBusError :=
  fun _ _ => ⟨exec_rdh_refused, fun _ => exec_rdh_byte⟩

/-! ## STATUS and ERRINFO -/

/-- VALID, ERR and ERRINFO are as they were (R32, R35). -/
abbrev StatusKept (s t : State) : Prop := t.valid = s.valid ∧ t.err = s.err ∧ t.errInfo = s.errInfo

/-- What every operation but CREATE can do to VALID, ERR and ERRINFO: exception entry, or nothing
(R226). -/
abbrev RaisedOrStatusKept (s t : State) : Prop := (∃ e info, t = s.raise e info) ∨ StatusKept s t

/-- A CREATE that is accepted starts a session with no error (R171, R228). -/
abbrev SessionStarted (t : State) : Prop := t.valid = true ∧ t.err = .noError ∧ t.errInfo = 0

theorem execCreate_status {n : BitVec 16} {mode : FoldMode} (h : execCreate n mode s = .next t) :
    (legalSize s.inst n = true ∧ SessionStarted t) ∨ RaisedOrStatusKept s t := by
  cases hl : legalSize s.inst n with
  | true =>
    obtain ⟨-, -, rfl⟩ := (execCreate_legal_next_iff hl).1 h
    exact .inl ⟨rfl, rfl, rfl, rfl⟩
  | false =>
    cases (execCreate_illegal hl).symm.trans h
    exact .inr (.inl ⟨_, _, rfl⟩)

theorem execAbsorb_status (h : execAbsorb s = .next t) : RaisedOrStatusKept s t := by
  cases hv : s.valid with
  | false =>
    cases (execAbsorb_noSession hv).symm.trans h
    exact .inl ⟨_, _, rfl⟩
  | true =>
    by_cases hw : s.wptr = 0
    · cases (execAbsorb_noBytes hv hw).symm.trans h
      exact .inr ⟨rfl, rfl, rfl⟩
    · cases (execAbsorb_accepted hv hw).symm.trans h
      exact .inr ⟨rfl, rfl, rfl⟩

theorem execPush_status {b : Byte} (h : execPush b s = .next t) : RaisedOrStatusKept s t := by
  cases hv : s.valid with
  | false =>
    cases (execPush_noSession hv).symm.trans h
    exact .inl ⟨_, _, rfl⟩
  | true =>
    by_cases hn : s.wptr = s.n
    · cases (execPush_overflow hv hn).symm.trans h
      exact .inl ⟨_, _, rfl⟩
    · obtain ⟨-, rfl⟩ := (execPush_accepted_next_iff hv hn).1 h
      exact .inr ⟨rfl, rfl, rfl⟩

/-- Everything an operation can do to VALID, ERR and ERRINFO: a CREATE of a legal size, directly or by
WRCMD, starts a session, and every other operation raises or leaves the three as they were (R171, R226). -/
theorem exec_status_cases (h : exec i s = .next t) :
    (∃ n mode, DeliversCreate i n mode ∧ legalSize s.inst n = true ∧ SessionStarted t) ∨
    RaisedOrStatusKept s t := by
  cases i with
  | create n mode => exact (execCreate_status h).imp_left fun hc => ⟨n, mode, .inl rfl, hc⟩
  | absorb => exact .inr (execAbsorb_status h)
  | wrcmd w =>
    rcases decodeCommand_cases w with ⟨n, mode, hw⟩ | hw | hw
    · have hword : w = createWord n mode := eq_createWord_of_decodeCommand hw
      exact (execCreate_status ((execWrcmd_create hw).symm.trans h)).imp_left fun hc =>
        ⟨n, mode, .inr (congrArg _ hword), hc⟩
    · exact .inr (execAbsorb_status ((execWrcmd_absorb hw).symm.trans h))
    · cases (execWrcmd_illegal hw).symm.trans h
      exact .inr (.inl ⟨_, _, rfl⟩)
  | push b => exact .inr (execPush_status h)
  | rdh k =>
    obtain ⟨_, rfl⟩ := respond_of_execRdh h
    exact .inr (.inr ⟨rfl, rfl, rfl⟩)
  | rdstatus | rdcfg | rdcap | rdfill | rderrinfo | idle =>
    cases h
    exact .inr (.inr ⟨rfl, rfl, rfl⟩)
  | pad => obtain ⟨-, -, rfl⟩ := execPad_next_iff.1 h; exact .inr (.inr ⟨rfl, rfl, rfl⟩)
  | pack => obtain ⟨-, rfl⟩ := execPack_next_iff.1 h; exact .inr (.inr ⟨rfl, rfl, rfl⟩)
  | mix => obtain ⟨-, rfl⟩ := execMix_next_iff.1 h; exact .inr (.inr ⟨rfl, rfl, rfl⟩)
  | diffuse => obtain ⟨-, rfl⟩ := execDiffuse_next_iff.1 h; exact .inr (.inr ⟨rfl, rfl, rfl⟩)
  | foldE => obtain ⟨-, rfl⟩ := execFoldE_next_iff.1 h; exact .inr (.inr ⟨rfl, rfl, rfl⟩)
  | foldX => obtain ⟨-, rfl⟩ := execFoldX_next_iff.1 h; exact .inr (.inr ⟨rfl, rfl, rfl⟩)

/-- Settles O39: a CREATE that starts a session records no error, exception entry leaves VALID clear, and
nothing else writes either flag. -/
theorem onlyCreateOpensASession : Obligations.OnlyCreateOpensASession := by
  intro i s t h
  rcases exec_status_cases h with ⟨n, mode, hi, hl, -, herr, -⟩ | ⟨e, info, rfl⟩ | ⟨hvalid, herr, -⟩
  · exact ⟨fun _ hne => absurd herr hne, fun _ _ => ⟨n, mode, hl, hi⟩⟩
  · exact ⟨fun _ _ => rfl, nofun⟩
  · exact ⟨fun h0 hne => absurd (herr.trans h0) hne,
      fun h0 h1 => absurd (h0.symm.trans (hvalid.symm.trans h1)) Bool.false_ne_true⟩

end Sys2Proof.Machine

/-! SUPPORT. The sequencer (R200 to R208): what a micro-operation does to SEQ, RND and the host's side, and
from that the steps an ABSORB in progress has left. -/

namespace Sys2Proof.Machine

variable {s t : State} {i : Instr}

/-! ## The operation of a step -/

theorem step_of_fetch (h : s.NoReset) (hf : fetch s = .ok i) :
    step s = exec i { s with resetLine := s.resetLine.tail } := by
  rw [step_of_noReset h]
  exact stepRun_of_fetch hf

theorem decode_selectorWord_eq_microOp (s : State) :
    decode (.selector (selectorWord s)) = .ok (microOp s.mode s.seq) := by
  simp only [selectorWord]
  cases s.mode <;> cases s.seq <;> rfl

/-- Settles O6: the words fetched are the selector's while SEQ is busy, the transaction's while one is being
served, and IDLE's otherwise; without reset what they stand for is what runs. -/
theorem stepRunsTheDecodedOperation : Obligations.StepRunsTheDecodedOperation := fun s h =>
  ⟨fun _ hf => step_of_fetch h hf,
    fun hs => (fetch_busy hs).trans (decode_selectorWord_eq_microOp s).symm,
    fetch_quiet, fun _ _ hs hp => fetch_pending hs hp⟩

/-- Settles O11: IDLE is the identity on the state (R201). -/
theorem idleDoesNothing : Obligations.IdleDoesNothing := fun _ => rfl

/-! ## SEQ, RND and the host -/

/-- A row of R202's table: SEQ and RND after the micro-operation that SEQ selects (R203, R204). -/
def sequencerNext : Seq → BitVec 7 → Seq × BitVec 7
  | .idle, r => (.idle, r)
  | .pad, r => (.pack, r)
  | .pack, _ => (.mix, roundStart)
  | .mix, r => (.diffuse, r)
  | .diffuse, r => (if r + roundStep ≤ roundBound then .mix else .fold, r + roundStep)
  | .fold, r => (.idle, r)

/-- The ABSORB goes on, and the host has no move (R207). -/
abbrev HostWaits (s t : State) : Prop :=
  t.seq ≠ .idle ∧ t.pending = s.pending ∧ t.replies = s.replies

/-- FOLD has ended the ABSORB, whose CMD write is answered (R60, R207). -/
abbrev AbsorbEnds (s t : State) : Prop :=
  s.seq = .fold ∧ t.seq = .idle ∧ t.pending = s.pending.tail ∧ t.replies = .ok :: s.replies

/-- Everything a micro-operation does outside the register files and WPTR. -/
theorem exec_microOp_effect (hs : s.seq ≠ .idle) (he : exec (microOp s.mode s.seq) s = .next t) :
    (t.seq, t.rnd) = sequencerNext s.seq s.rnd ∧ t.resetLine = s.resetLine ∧
      (HostWaits s t ∨ AbsorbEnds s t) := by
  cases hq : s.seq with
  | idle => exact absurd hq hs
  | pad =>
    rw [hq] at he
    obtain ⟨-, -, rfl⟩ := execPad_next_iff.1 he
    exact ⟨rfl, rfl, .inl ⟨nofun, rfl, rfl⟩⟩
  | pack =>
    rw [hq] at he
    obtain ⟨-, rfl⟩ := execPack_next_iff.1 he
    exact ⟨rfl, rfl, .inl ⟨nofun, rfl, rfl⟩⟩
  | mix =>
    rw [hq] at he
    obtain ⟨-, rfl⟩ := execMix_next_iff.1 he
    exact ⟨rfl, rfl, .inl ⟨nofun, rfl, rfl⟩⟩
  | diffuse =>
    rw [hq] at he
    obtain ⟨-, rfl⟩ := execDiffuse_next_iff.1 he
    refine ⟨rfl, rfl, .inl ⟨?_, rfl, rfl⟩⟩
    dsimp only
    split_ifs <;> nofun
  | fold =>
    rw [hq] at he
    cases hm : s.mode with
    | elementwise =>
      rw [hm] at he
      obtain ⟨-, rfl⟩ := execFoldE_next_iff.1 he
      exact ⟨rfl, rfl, .inr ⟨hq, rfl, rfl, rfl⟩⟩
    | cross =>
      rw [hm] at he
      obtain ⟨-, rfl⟩ := execFoldX_next_iff.1 he
      exact ⟨rfl, rfl, .inr ⟨hq, rfl, rfl, rfl⟩⟩

/-- Settles O36: while SEQ is not IDLE the step is a micro-operation, and only FOLD answers the host. -/
theorem hostHasNoMoveDuringAnAbsorb : Obligations.HostHasNoMoveDuringAnAbsorb := by
  intro s t h hs he
  rw [step_of_fetch h (fetch_busy hs)] at he
  obtain ⟨-, -, hhost⟩ :=
    exec_microOp_effect (s := { s with resetLine := s.resetLine.tail }) hs he
  exact hhost

/-! ## The steps left -/

/-- The steps until SEQ is IDLE, counted down R202's table from thirteen at PAD. -/
def stepsLeft : Seq → BitVec 7 → Nat
  | .idle, _ => 0
  | .pad, _ => 13
  | .pack, _ => 12
  | .mix, r => 2 * ((78 - r.toNat) / 13) + 1
  | .diffuse, r => 2 * ((78 - r.toNat) / 13)
  | .fold, _ => 1

theorem inv_rnd_of_round (h : s.Inv) (hs : s.seq = .mix ∨ s.seq = .diffuse) :
    s.rnd ∈ roundConstants := by
  obtain ⟨-, -, -, -, -, -, -, -, hrnd, -⟩ := h
  exact hrnd hs

/-- Each row of R202's table is one step nearer to IDLE; at DIFFUSE, because RND is a round constant. -/
theorem stepsLeft_eq_succ {q : Seq} {r : BitVec 7} (hq : q ≠ .idle)
    (hr : q = .diffuse → r ∈ roundConstants) :
    stepsLeft q r = stepsLeft (sequencerNext q r).1 (sequencerNext q r).2 + 1 := by
  cases q with
  | idle => exact absurd rfl hq
  | pad | mix | fold => rfl
  | pack =>
    have hstart : 12 = stepsLeft .mix roundStart + 1 := by decide
    exact hstart
  | diffuse =>
    have hloop : ∀ c ∈ roundConstants, stepsLeft .diffuse c =
        stepsLeft (sequencerNext .diffuse c).1 (sequencerNext .diffuse c).2 + 1 := by decide
    exact hloop r (hr rfl)

theorem stepsLeft_le_thirteen (h : s.Inv) : stepsLeft s.seq s.rnd ≤ 13 := by
  have hround : ∀ r ∈ roundConstants, stepsLeft .mix r ≤ 13 ∧ stepsLeft .diffuse r ≤ 13 := by decide
  cases hq : s.seq with
  | mix => exact (hround _ (inv_rnd_of_round h (.inl hq))).1
  | diffuse => exact (hround _ (inv_rnd_of_round h (.inr hq))).2
  | idle | pad | pack | fold => simp [stepsLeft]

/-- A step while an ABSORB runs is answered, keeps the invariant, and is one row of R202's table. -/
theorem exists_step_of_busy (h : s.Inv) (hs : s.seq ≠ .idle) (hr : s.resetLine = []) :
    ∃ t, step s = .next t ∧ t.Inv ∧ t.resetLine = [] ∧
      stepsLeft s.seq s.rnd = stepsLeft t.seq t.rnd + 1 ∧ (HostWaits s t ∨ AbsorbEnds s t) := by
  obtain ⟨t, he⟩ := exec_answers h (microOp s.mode s.seq)
  obtain ⟨hnext, hreset, hhost⟩ := exec_microOp_effect hs he
  have hleft := stepsLeft_eq_succ hs fun hq => inv_rnd_of_round h (.inr hq)
  rw [← hnext] at hleft
  exact ⟨t, (step_microOp hr hs).trans he, exec_microOp_inv h hs he, hreset.trans hr, hleft, hhost⟩

/-- From any point of an ABSORB the rest of R202's table runs to its end and answers the CMD write. -/
theorem run_stepsLeft (h : s.Inv) (hs : s.seq ≠ .idle) (hr : s.resetLine = []) :
    ∃ t : State, Host.Core.run core (stepsLeft s.seq s.rnd) s = .next t ∧ t.seq = .idle ∧
      t.replies = .ok :: s.replies := by
  induction hn : stepsLeft s.seq s.rnd generalizing s with
  | zero =>
    obtain ⟨t, -, -, -, hleft, -⟩ := exists_step_of_busy h hs hr
    omega
  | succ n ih =>
    obtain ⟨t, hstep, hinv, hreset, hleft, hhost⟩ := exists_step_of_busy h hs hr
    have hn' : stepsLeft t.seq t.rnd = n := by omega
    rw [run_succ_of_step (M := core) hstep]
    rcases hhost with ⟨hbusy, -, hreplies⟩ | ⟨-, hidle, -, hreplies⟩
    · rw [← hreplies]
      exact ih hinv hbusy hreset hn'
    · obtain rfl : 0 = n := by rwa [hidle] at hn'
      exact ⟨t, rfl, hidle, hreplies⟩

/-- Settles O35: the steps left are at most the thirteen of PAD, and each of them is taken. -/
theorem everyAbsorbCompletes : Obligations.EveryAbsorbCompletes := by
  intro s h hs hr
  obtain ⟨t, hrun, hidle, hreplies⟩ := run_stepsLeft h hs hr
  exact ⟨stepsLeft s.seq s.rnd, t, stepsLeft_le_thirteen h, hrun, hidle, hreplies⟩

end Sys2Proof.Machine

/-! SUPPORT. Exception entry with an error recorded already: the first one is kept (R226). -/

namespace Sys2Proof.Machine

variable {s : State}

theorem State.raise_err_of_recorded (he : s.err ≠ .noError) (e : ErrCode) (info : Reg) :
    (s.raise e info).err = s.err := if_neg he

theorem State.raise_errInfo_of_recorded (he : s.err ≠ .noError) (e : ErrCode) (info : Reg) :
    (s.raise e info).errInfo = s.errInfo := if_neg he

/-- Settles O38: a CREATE that starts a session clears the record, exception entry keeps the one that
stands, and nothing else writes it. -/
theorem firstExceptionIsKeptUntilCreate : Obligations.FirstExceptionIsKeptUntilCreate := by
  intro i s t h he
  rcases exec_status_cases h with
    ⟨n, mode, hi, hl, hvalid, herr, hinfo⟩ | ⟨e, info, rfl⟩ | ⟨-, herr, hinfo⟩
  · exact .inr ⟨herr, hinfo, hvalid, n, mode, hl, hi⟩
  · exact .inl ⟨State.raise_err_of_recorded he e info, State.raise_errInfo_of_recorded he e info⟩
  · exact .inl ⟨herr, hinfo⟩

end Sys2Proof.Machine

/-! SUPPORT. The step that takes an asserted sample of the reset input (R250), and the register words of a
state whose fields are those of R252. -/

namespace Sys2Proof.Machine

variable {s : State}

/-! ## The reset event -/

theorem step_of_reset {rest : List Bool} (h : s.resetLine = true :: rest) :
    step s = .next ({ s with resetLine := rest }.takeReset) := by
  rcases step_cases s with ⟨rest', hr, hstep⟩ | ⟨hno, -⟩
  · obtain ⟨-, rfl⟩ := List.cons.inj (h.symm.trans hr)
    exact hstep
  · exact absurd (congrArg List.head? h) hno

/-- Settles O9: an asserted sample makes the step the reset event, which is the record of R252's values
with the instance kept. -/
theorem resetEventClearsTheEngine : Obligations.ResetEventClearsTheEngine := by
  intro s rest h
  rw [step_of_reset h, State.takeReset, State.resetFor]

/-! ## The register words after reset -/

theorem cfgWord_eq_zero (hn : s.n = 0) (hmode : s.mode = .elementwise) : cfgWord s = 0 := by
  apply BitVec.eq_of_toNat_eq
  rw [cfgWord_toNat, hn, hmode]
  rfl

theorem statusWord_eq_zero (hvalid : s.valid = false) (herr : s.err = .noError) :
    statusWord s = 0 := by
  apply BitVec.eq_of_toNat_eq
  rw [statusWord_toNat, hvalid, herr]
  rfl

theorem fillWord_eq_zero (hwptr : s.wptr = 0) : fillWord s = 0 := by
  apply BitVec.eq_of_toNat_eq
  rw [fillWord, toNat_reserved_append, hwptr]
  rfl

/-- Settles O10: the four files are empty, the fields are the literals of `State.resetFor`, and the
register words follow from the fields. -/
theorem resetValuesAreTheListed : Obligations.ResetValuesAreTheListed := by
  intro inst
  have hfiles : ∀ i, (State.resetFor inst).h.read i = none ∧ (State.resetFor inst).b.read i = none ∧
      (State.resetFor inst).a.read i = none ∧ (State.resetFor inst).p.read i = none :=
    fun i => ⟨Cells.read_nil i, Cells.read_nil i, Cells.read_nil i, Cells.read_nil i⟩
  exact ⟨State.resetFor inst, rfl, hfiles, rfl, rfl, rfl, rfl, rfl, rfl, rfl, rfl, rfl, rfl,
    cfgWord_eq_zero rfl rfl, statusWord_eq_zero rfl rfl, fillWord_eq_zero rfl⟩

end Sys2Proof.Machine
